-- ==== Sys2Proof/Word.lean ====
section
/-! DEFINITION. The word, byte, element and tile types, and the register indices (spec/00_scope.md R6, R9;
spec/10_state.md R20, R24, R25). -/

namespace Sys2Proof

/-- A scalar register, the pc, an address or an instruction word: a 32-bit vector (R6, R9). -/
abbrev Word := BitVec 32

/-- The unit of memory (R33). -/
abbrev Byte := BitVec 8

/-- The 16-bit pattern of one tile element (R25). -/
abbrev Half := BitVec 16

/-- A matrix register's value: row r, column c is `t[r][c]` (R24). -/
abbrev Tile := Vector (Vector Half 4) 4

/-- The index of a scalar register, x0..x31 (R20). -/
abbrev XReg := Fin 32

/-- The index of a matrix register, m0..m15 (R24). -/
abbrev MReg := Fin 16

/-- The tile whose element in row r and column c is `f r c`. -/
def Tile.ofFn (f : Fin 4 → Fin 4 → Half) : Tile :=
  Vector.ofFn fun r => Vector.ofFn fun c => f r c

/-- Element (r, c) of a tile, `m[i][r][c]` of R10. -/
def Tile.elem (t : Tile) (r c : Fin 4) : Half :=
  (t[r])[c]

/-- The tile with every element +0.0 (R34). -/
def Tile.zero : Tile := Vector.replicate 4 (Vector.replicate 4 0)

end Sys2Proof
end

