-- ==== Sys2Proof/Config.lean ====
section
/-! DEFINITION. What an implementation fixes: the two behaviour parameters of spec/00_scope.md R6, and the free
value that stands for GemmFn where the spec leaves it open (spec/43_matrix.md R250 to R253). The encoding
parameters of R6 (OPC_GEMM, OPC_LDM, OPC_STM, MOV_FUNCT7) stand in Sys2Proof/Decode.lean beside their use, and
MEM_SIZE is the size of a state's memory. -/

namespace Sys2Proof

/-- BRANCH_CMP_MODE (R6, R220): how blt and bge read the comparator's difference. -/
inductive BranchCmpMode where
  /-- The exact integer difference of the signed values. -/
  | exact
  /-- The 32-bit wrapped difference, read as signed. -/
  | wrapped
deriving DecidableEq, Repr

/-- JALR_READ_ORDER (R6, R226): whether jalr reads rs1 after or before it writes rd. -/
inductive JalrReadOrder where
  /-- x[rs1] is read after the write of x[rd], the order the source writes. -/
  | linkFirst
  /-- x[rs1] is read before the write of x[rd]. -/
  | rs1First
deriving DecidableEq, Repr

/-- The behaviour parameters of one Core, fixed at construction (R6). -/
structure Params where
  branchCmp : BranchCmpMode
  jalrOrder : JalrReadOrder
deriving DecidableEq, Repr

/-- The values the spec decides (R6, decisions D20 and D22). -/
def Params.decided : Params := { branchCmp := .exact, jalrOrder := .linkFirst }

/-- FREE VALUE (R250 to R252; DESIGN CHOICE, notes/assumptions/5.md). What GemmFn answers for three operand
tiles wherever the exactness property R253 says nothing. It depends on the operand tiles alone (R251). It has no
body, so nothing can be proved of a value of it. -/
opaque Config.gemmFree : Tile → Tile → Tile → Tile

end Sys2Proof
end

