-- ==== Sys2Proof/Machine/State.lean ====
section
/-! DEFINITION. The state of one Core, the faults it records and the refusals (spec/10_state.md; spec/60_exceptions.md
R300, R306; spec/70_reset_and_hazards.md R330). -/

namespace Sys2Proof.Machine

/-- The kind of access an alignment or bounds fault records (R300). -/
inductive AccessKind where
  | fetch
  | load
  | store
  | tileLoad
  | tileStore
deriving DecidableEq, Repr

/-- The faults of R300, each with the information it records, the pc of the faulting instruction first.
A fault is recorded in `State.status` by a NEXT state (R308; notes/assumptions/3.md): no step and no meaning answers
the outcome `fault`. -/
inductive Fault where
  /-- The fetched word has no meaning. Raised by `step` at decode (R303). Safe: the spec's own fault. -/
  | decodeError (pc : Word) (word : Word)
  /-- An access address is not a multiple of 4. Raised by the fetch, lw, sw, ld.m and st.m (R301, R304). Safe: the
  spec's own fault. -/
  | alignmentFault (pc : Word) (kind : AccessKind) (addr : Word)
  /-- An access is not wholly inside memory; `size` is 4 or 32. Raised by the fetch, lw, sw, ld.m and st.m (R302,
  R305). Safe: the spec's own fault. -/
  | boundsFault (pc : Word) (kind : AccessKind) (addr : Word) (size : Nat)
  /-- A register index outside its range. Raised by nobody: no decoded instruction can (R307). Safe. -/
  | registerIndexFault (pc : Word) (index : Nat)
deriving DecidableEq, Repr

/-- The reasons of `refuse(reason)` (R306). -/
inductive RefuseReason where
  /-- ld.m or st.m with stride other than 0 (R262). -/
  | strideUnmodelled
deriving DecidableEq, Repr

/-- The outcome `refused` of the host's interface. No step and no meaning answers it: the spec's own refusal is recorded
in `State.status` by a NEXT state (R306; notes/assumptions/4.md). -/
inductive Refusal where
  /-- An instruction without a meaning yet. Raised by no arm of `exec`: every instruction has one. Safe. -/
  | notModelled (mnemonic : String)
deriving DecidableEq, Repr

/-- The run status (R30). -/
inductive Status where
  | running
  | halted
  | faulted (f : Fault)
  | refused (reason : RefuseReason) (pc : Word)
deriving DecidableEq, Repr

/-- The ControlRegister (R29). -/
structure ControlRegister where
  startAddress : Word
  stackPointer : Word
deriving DecidableEq, Repr

/-- Memory: MEM_SIZE and the bytes that differ from what an unlisted address reads as, in canonical form
(`Memory.wf`, Machine/Memory.lean) (R33, R50). -/
structure Memory where
  size : Nat
  cells : List Host.Cell
deriving DecidableEq, Repr

/-- The state of one Core: the tuple of spec/10_state.md, with the configuration `params` carried beside it. -/
structure State where
  /-- x0..x31 (R20). -/
  x : Vector Word 32
  /-- m0..m15 (R24). -/
  m : Vector Tile 16
  /-- The address of the current instruction (R27). -/
  pc : Word
  /-- R33. -/
  mem : Memory
  /-- Read once at construction, never written (R29). -/
  ctrl : ControlRegister
  /-- R30. -/
  status : Status
  /-- Configuration, the model's own field: never written (R6; notes/assumptions/6.md). -/
  params : Params
deriving DecidableEq, Repr

/-- The ControlRegister of `State.reset` (DESIGN CHOICE, notes/assumptions/1.md). -/
def ControlRegister.reset : ControlRegister := { startAddress := 0#32, stackPointer := 0#32 }

/-- MEM_SIZE of `State.reset`: the largest the spec allows (DESIGN CHOICE, notes/assumptions/1.md). -/
def Memory.resetSize : Nat := 2 ^ 31

/-- The state after `Core::new` of R34 and R330 for an empty image, the control register `ControlRegister.reset`, a
memory of `Memory.resetSize` bytes that lists nothing, and the decided parameters (notes/assumptions/1.md,
notes/assumptions/2.md). -/
def State.reset : State where
  x := (Vector.replicate 32 0#32).set 2 ControlRegister.reset.stackPointer
  m := Vector.replicate 16 Tile.zero
  pc := ControlRegister.reset.startAddress
  mem := { size := Memory.resetSize, cells := [] }
  ctrl := ControlRegister.reset
  status := .running
  params := Params.decided

end Sys2Proof.Machine
end

