-- ==== Sys2Proof/Machine/Memory.lean ====
section
/-! DEFINITION. Memory operations (spec/20_memory.md R50 to R57; spec/43_matrix.md R258): bytes first, wider accesses
from them, so that byte order is decided once. None of these checks bounds or alignment: `accessFault` of
Machine/Ops.lean does, before they are used. -/

namespace Sys2Proof.Machine

/-- What an address no cell lists reads as (DESIGN CHOICE, notes/assumptions/2.md). -/
def unlistedByte : Byte := 0x00#8

namespace Cells

/-- The byte a list of cells gives an address: the first cell that lists it. -/
def lookup : List Host.Cell → Nat → Byte
  | [], _ => unlistedByte
  | (k, v) :: rest, a => if k = a then v else lookup rest a

/-- The list without the cells of an address. -/
def erase : List Host.Cell → Nat → List Host.Cell
  | [], _ => []
  | (k, v) :: rest, a => if k = a then erase rest a else (k, v) :: erase rest a

/-- A cell put before the first cell of a higher address. -/
def place : List Host.Cell → Nat → Byte → List Host.Cell
  | [], a, b => [(a, b)]
  | (k, v) :: rest, a, b => if a < k then (a, b) :: (k, v) :: rest else (k, v) :: place rest a b

/-- The list with one byte written, in canonical form again. -/
def write (cells : List Host.Cell) (a : Nat) (b : Byte) : List Host.Cell :=
  if b = unlistedByte then erase cells a else place (erase cells a) a b

/-- Addresses strictly rise. -/
abbrev sorted (cells : List Host.Cell) : Prop := cells.Pairwise fun c d => c.1 < d.1

end Cells

/-- The canonical form: addresses strictly rising and inside memory, no cell equal to what an unlisted address
reads as, and MEM_SIZE at most 2^31 (R50). -/
abbrev Memory.wf (mem : Memory) : Prop :=
  Cells.sorted mem.cells ∧ (∀ c ∈ mem.cells, c.2 ≠ unlistedByte ∧ c.1 < mem.size) ∧ mem.size ≤ 2 ^ 31

/-- The byte at an address. -/
def Memory.readByte (mem : Memory) (a : Nat) : Byte := Cells.lookup mem.cells a

/-- Memory with one byte written. -/
def Memory.writeByte (mem : Memory) (a : Nat) (b : Byte) : Memory :=
  { mem with cells := Cells.write mem.cells a b }

/-- Memory with consecutive bytes written, the first at address `a`: `MemWrite` of R10. -/
def Memory.writeBytes (mem : Memory) (a : Nat) : List Byte → Memory
  | [] => mem
  | b :: rest => (mem.writeByte a b).writeBytes (a + 1) rest

/-- `n` consecutive bytes, lowest address first: `MemRead` of R10. -/
def Memory.readBytes (mem : Memory) (a : Nat) : Nat → List Byte
  | 0 => []
  | n + 1 => mem.readByte a :: mem.readBytes (a + 1) n

/-- `LoadWord(a)` (R55): little-endian. -/
def Memory.loadWord (mem : Memory) (a : Nat) : Word :=
  mem.readByte (a + 3) ++ mem.readByte (a + 2) ++ mem.readByte (a + 1) ++ mem.readByte a

/-- The bytes of a word in memory order (R55). -/
def wordBytes (v : Word) : List Byte :=
  [v.extractLsb' 0 8, v.extractLsb' 8 8, v.extractLsb' 16 8, v.extractLsb' 24 8]

/-- `StoreWord(a, v)` (R55). -/
def Memory.storeWord (mem : Memory) (a : Nat) (v : Word) : Memory := mem.writeBytes a (wordBytes v)

/-- One tile element: the byte at the lower address is bits 7..0 (R258). -/
def Memory.loadHalf (mem : Memory) (a : Nat) : Half := mem.readByte (a + 1) ++ mem.readByte a

/-- The 32 bytes at `a` as a tile, row-major (R258, R259). -/
def Memory.loadTile (mem : Memory) (a : Nat) : Tile :=
  Tile.ofFn fun r c => mem.loadHalf (a + 2 * (4 * r.val + c.val))

/-- The bytes of one element in memory order (R258). -/
def halfBytes (v : Half) : List Byte := [v.extractLsb' 0 8, v.extractLsb' 8 8]

/-- The bytes of one row in memory order (R258). -/
def rowBytes (t : Tile) (r : Fin 4) : List Byte :=
  halfBytes (t.elem r 0) ++ halfBytes (t.elem r 1) ++ halfBytes (t.elem r 2) ++ halfBytes (t.elem r 3)

/-- The 32 bytes of a tile in memory order, row-major (R258). -/
def tileBytes (t : Tile) : List Byte := rowBytes t 0 ++ rowBytes t 1 ++ rowBytes t 2 ++ rowBytes t 3

/-- Memory with a tile written at `a` (R260). -/
def Memory.storeTile (mem : Memory) (a : Nat) (t : Tile) : Memory := mem.writeBytes a (tileBytes t)

end Sys2Proof.Machine
end

