-- ==== Sys2Proof/Machine/Ops.lean ====
section
/-! DEFINITION. The named operations over registers and the pc, the access checks, taking a fault and refusing
(spec/00_scope.md R10; spec/20_memory.md R53, R54; spec/60_exceptions.md R300 to R309). There is no return from a
fault (R316). -/

namespace Sys2Proof.Machine

/-- What a meaning answers. -/
abbrev Result := Host.Outcome State Fault Refusal

/-- `x[i]` (R10). x0 is an ordinary register (R21). -/
def State.readX (s : State) (r : XReg) : Word := s.x[r]

/-- `x[i] <- v` (R10). A write to x0 changes it (R21). -/
def State.writeX (s : State) (r : XReg) (v : Word) : State := { s with x := s.x.set r v }

/-- `m[i]` (R10). -/
def State.readM (s : State) (r : MReg) : Tile := s.m[r]

/-- `m[i] <- T` (R10). -/
def State.writeM (s : State) (r : MReg) (t : Tile) : State := { s with m := s.m.set r t }

/-- `pc <- target` (R10). -/
def State.setPc (s : State) (target : Word) : State := { s with pc := target }

/-- `pc <- pc + 4`, modulo 2^32 (R27). -/
def State.advance (s : State) : State := s.setPc (s.pc + 4#32)

/-- The byte at an address. -/
def State.readByte (s : State) (a : Nat) : Byte := s.mem.readByte a

/-- The fault an access of `n` bytes at `a` raises, alignment checked before bounds (R53, R54, R309), with what
R300 records. -/
def State.accessFault (s : State) (kind : AccessKind) (a : Word) (n : Nat) : Option Fault :=
  if a.toNat % 4 ≠ 0 then some (.alignmentFault s.pc kind a)
  else if s.mem.size < a.toNat + n then some (.boundsFault s.pc kind a n)
  else none

/-- Taking a fault (R308): status becomes Faulted(f), nothing else changes. -/
def State.takeFault (s : State) (f : Fault) : Result := .next { s with status := .faulted f }

/-- `refuse(reason)` (R306): status becomes Refused(reason) with the pc, nothing else changes. -/
def State.refuse (s : State) (reason : RefuseReason) : Result := .next { s with status := .refused reason s.pc }

/-- An access of `n` bytes at `a`: the fault it raises, or else the state `t` it leads to. -/
def State.access (s : State) (kind : AccessKind) (a : Word) (n : Nat) (t : State) : Result :=
  match s.accessFault kind a n with
  | some f => s.takeFault f
  | none => .next t

/-- The instruction word at the pc, or the fetch fault (R301, R302, R311). -/
def State.fetch (s : State) : Except Fault Word :=
  match s.accessFault .fetch s.pc 4 with
  | some f => .error f
  | none => .ok (s.mem.loadWord s.pc.toNat)

end Sys2Proof.Machine
end

