-- ==== Sys2Proof/Machine/Flags.lean ====
section
/-! DEFINITION. The block has no flags or condition codes (spec/10_state.md R31). What a branch tests is the
comparator's difference, a value inside one step that is not kept (spec/42_control.md R220). -/

namespace Sys2Proof.Machine

/-- The comparator's difference d of two register values (R220). -/
def branchDifference (mode : BranchCmpMode) (a b : Word) : Int :=
  match mode with
  | .exact => a.toInt - b.toInt
  | .wrapped => (a - b).toInt

/-- The difference of two registers of a state, under its BRANCH_CMP_MODE. -/
def State.difference (s : State) (rs1 rs2 : XReg) : Int :=
  branchDifference s.params.branchCmp (s.readX rs1) (s.readX rs2)

end Sys2Proof.Machine
end

