-- ==== Sys2Proof/Machine/Operands.lean ====
section
/-! DEFINITION. Operand forms: extended immediates, effective addresses and shift counts (spec/20_memory.md R52;
spec/30_encoding.md R95 to R101). -/

namespace Sys2Proof.Machine

/-- The I, S and JALR operand: the 12-bit field sign-extended (R95, R96). -/
def extend12 (imm : BitVec 12) : Word := imm.signExtend 32

/-- The B operand: the 13-bit byte offset sign-extended (R97). -/
def extend13 (imm : BitVec 13) : Word := imm.signExtend 32

/-- The J operand: the 21-bit byte offset sign-extended (R99). -/
def extend21 (imm : BitVec 21) : Word := imm.signExtend 32

/-- The Matrix-Mem operand: the 11-bit displacement sign-extended (R100). -/
def extend11 (imm : BitVec 11) : Word := imm.signExtend 32

/-- The U operand: the 20-bit field in bits 31..12, bits 11..0 zero (R98). -/
def upperImmediate (imm20 : BitVec 20) : Word := imm20 ++ 0#12

/-- The shift count: the low 5 bits of the shift operand (R101, R146). -/
def shiftCount (operand : Word) : Nat := (operand.extractLsb' 0 5).toNat

/-- The shift operand of slli, srli and srai carries the count in its low 5 bits; the bits above do not count
(R101). -/
def shamtOperand (shamt : BitVec 5) : Word := shamt.zeroExtend 32

/-- The effective address of lw and sw: base plus displacement, modulo 2^32 (R52). -/
def wordAddress (s : State) (rs1 : XReg) (imm : BitVec 12) : Word := s.readX rs1 + extend12 imm

/-- The effective address of ld.m and st.m (R52, R100). -/
def tileAddress (s : State) (rs1 : XReg) (imm : BitVec 11) : Word := s.readX rs1 + extend11 imm

end Sys2Proof.Machine
end

