-- ==== Sys2Proof/Machine/Control.lean ====
section
/-! DEFINITION. Branches and jumps (spec/42_control.md R220 to R226). None of them faults: a target that is not a
multiple of 4 faults at the next fetch (R301). -/

namespace Sys2Proof.Machine

/-- A conditional branch: taken, pc plus the byte offset; not taken, pc plus 4 (R220). -/
def branch (taken : Bool) (imm : BitVec 13) (s : State) : Result :=
  .next (if taken then s.setPc (s.pc + extend13 imm) else s.advance)

/-- R221. -/
def execBeq (rs1 rs2 : XReg) (imm : BitVec 13) (s : State) : Result :=
  branch (decide (s.difference rs1 rs2 = 0)) imm s

/-- R222. -/
def execBne (rs1 rs2 : XReg) (imm : BitVec 13) (s : State) : Result :=
  branch (decide (s.difference rs1 rs2 ≠ 0)) imm s

/-- R223. -/
def execBlt (rs1 rs2 : XReg) (imm : BitVec 13) (s : State) : Result :=
  branch (decide (s.difference rs1 rs2 < 0)) imm s

/-- R224. -/
def execBge (rs1 rs2 : XReg) (imm : BitVec 13) (s : State) : Result :=
  branch (decide (s.difference rs1 rs2 ≥ 0)) imm s

/-- Link and target both use the pc of the jal itself (R225). -/
def execJal (rd : XReg) (imm : BitVec 21) (s : State) : Result :=
  .next ((s.writeX rd (s.pc + 4#32)).setPc (s.pc + extend21 imm))

/-- The value of x[rs1] that jalr's target is computed from: after the write of the link under link_first, before it
under rs1_first (R226). -/
def jalrBase (rd rs1 : XReg) (s : State) : Word :=
  match s.params.jalrOrder with
  | .linkFirst => (s.writeX rd (s.pc + 4#32)).readX rs1
  | .rs1First => s.readX rs1

/-- Bit 0 of the target is not cleared (R226). -/
def execJalr (rd rs1 : XReg) (imm : BitVec 12) (s : State) : Result :=
  .next ((s.writeX rd (s.pc + 4#32)).setPc (jalrBase rd rs1 s + extend12 imm))

end Sys2Proof.Machine
end

