-- ==== Sys2Proof/Machine/Halt.lean ====
section
/-! DEFINITION. The halt sentinel (spec/44_halt.md R280). -/

namespace Sys2Proof.Machine

/-- status becomes Halted; pc, registers and memory are unchanged (R280). -/
def execHalt (s : State) : Result := .next { s with status := .halted }

end Sys2Proof.Machine
end

