-- ==== Sys2Proof/Machine/Alu.lean ====
section
/-! DEFINITION. The ALU: one 32-bit function of two operands for each operation, and the common dispatch of the R and
I forms (spec/40_alu.md R140 to R152, R160 to R169). The instructions of those forms stand in Machine/RegisterAlu.lean
and Machine/ImmediateAlu.lean. -/

namespace Sys2Proof.Machine

namespace Alu

/-- Sum modulo 2^32 (R141). -/
def add (a b : Word) : Word := a + b

/-- Difference modulo 2^32 (R142). -/
def sub (a b : Word) : Word := a - b

/-- Bitwise exclusive or (R143). -/
def xor (a b : Word) : Word := a ^^^ b

/-- Bitwise or (R144). -/
def or (a b : Word) : Word := a ||| b

/-- Bitwise and (R145). -/
def and (a b : Word) : Word := a &&& b

/-- Left shift by the low 5 bits of the second operand (R146). -/
def sll (a b : Word) : Word := a <<< shiftCount b

/-- Logical right shift (R147). -/
def srl (a b : Word) : Word := a >>> shiftCount b

/-- Arithmetic right shift (R148). -/
def sra (a b : Word) : Word := a.sshiftRight (shiftCount b)

/-- 1 if signed less, else 0 (R149). -/
def slt (a b : Word) : Word := if a.slt b then 1#32 else 0#32

/-- 1 if unsigned less, else 0 (R150). -/
def sltu (a b : Word) : Word := if a.ult b then 1#32 else 0#32

/-- The low 32 bits of the product (R151). -/
def mul (a b : Word) : Word := a * b

end Alu

/-- The R-type dispatch: both operands read, rd written, pc advanced (R140). -/
def aluRegisters (op : Word → Word → Word) (rd rs1 rs2 : XReg) (s : State) : Result :=
  .next (s.writeX rd (op (s.readX rs1) (s.readX rs2))).advance

/-- The I-type dispatch: the second operand is an immediate (R160). -/
def aluImmediate (op : Word → Word → Word) (rd rs1 : XReg) (operand : Word) (s : State) : Result :=
  .next (s.writeX rd (op (s.readX rs1) operand)).advance

end Sys2Proof.Machine
end

