-- ==== Sys2Proof/Machine/ImmediateAlu.lean ====
section
/-! DEFINITION. The register-immediate ALU instructions and lui (spec/40_alu.md R160 to R175). -/

namespace Sys2Proof.Machine

/-- R161. -/
def execAddi (rd rs1 : XReg) (imm : BitVec 12) (s : State) : Result := aluImmediate Alu.add rd rs1 (extend12 imm) s

/-- R162. -/
def execXori (rd rs1 : XReg) (imm : BitVec 12) (s : State) : Result := aluImmediate Alu.xor rd rs1 (extend12 imm) s

/-- R163. -/
def execOri (rd rs1 : XReg) (imm : BitVec 12) (s : State) : Result := aluImmediate Alu.or rd rs1 (extend12 imm) s

/-- R164. -/
def execAndi (rd rs1 : XReg) (imm : BitVec 12) (s : State) : Result := aluImmediate Alu.and rd rs1 (extend12 imm) s

/-- R165. -/
def execSlli (rd rs1 : XReg) (shamt : BitVec 5) (s : State) : Result :=
  aluImmediate Alu.sll rd rs1 (shamtOperand shamt) s

/-- R166. -/
def execSrli (rd rs1 : XReg) (shamt : BitVec 5) (s : State) : Result :=
  aluImmediate Alu.srl rd rs1 (shamtOperand shamt) s

/-- R167. -/
def execSrai (rd rs1 : XReg) (shamt : BitVec 5) (s : State) : Result :=
  aluImmediate Alu.sra rd rs1 (shamtOperand shamt) s

/-- R168. -/
def execSlti (rd rs1 : XReg) (imm : BitVec 12) (s : State) : Result := aluImmediate Alu.slt rd rs1 (extend12 imm) s

/-- The immediate is sign-extended first and then compared as unsigned (R169). -/
def execSltui (rd rs1 : XReg) (imm : BitVec 12) (s : State) : Result := aluImmediate Alu.sltu rd rs1 (extend12 imm) s

/-- The old contents of rd are replaced, not merged with (R175). -/
def execLui (rd : XReg) (imm20 : BitVec 20) (s : State) : Result :=
  .next (s.writeX rd (upperImmediate imm20)).advance

end Sys2Proof.Machine
end

