-- ==== Sys2Proof/Machine/LoadStore.lean ====
section
/-! DEFINITION. Scalar loads and stores (spec/41_load_store.md R200, R201). -/

namespace Sys2Proof.Machine

/-- The address is computed from the old x[rs1]; on a fault x[rd] and pc are unchanged (R200). -/
def execLw (rd rs1 : XReg) (imm : BitVec 12) (s : State) : Result :=
  let ea := wordAddress s rs1 imm
  s.access .load ea 4 (s.writeX rd (s.mem.loadWord ea.toNat)).advance

/-- On a fault memory and pc are unchanged (R201). -/
def execSw (rs2 rs1 : XReg) (imm : BitVec 12) (s : State) : Result :=
  let ea := wordAddress s rs1 imm
  s.access .store ea 4 { s with mem := s.mem.storeWord ea.toNat (s.readX rs2) }.advance

end Sys2Proof.Machine
end

