-- ==== Sys2Proof/Machine/Half.lean ====
section
/-! DEFINITION. Exact values of binary16 patterns (spec/10_state.md R25): 1 sign bit, 5 exponent bits with bias 15,
10 fraction bits. Every finite value is an integer multiple of 2^-24 and every product of two is one of 2^-48, so
values are held as integers and nothing is rounded. -/

namespace Sys2Proof.Machine

namespace Half

def signBit (h : Half) : Bool := h.getLsbD 15
def exponent (h : Half) : BitVec 5 := h.extractLsb' 10 5
def fraction (h : Half) : BitVec 10 := h.extractLsb' 0 10

/-- Neither an infinity nor a NaN. -/
def finite (h : Half) : Bool := exponent h != 0b11111#5

/-- The magnitude of a finite pattern in units of 2^-24: subnormals have no hidden bit. -/
def magnitude (h : Half) : Nat :=
  if exponent h = 0#5 then (fraction h).toNat
  else (1024 + (fraction h).toNat) * 2 ^ ((exponent h).toNat - 1)

/-- The value of a finite pattern in units of 2^-24. -/
def units (h : Half) : Int := if signBit h then -(magnitude h : Int) else magnitude h

/-- The exponent and fraction bits of the finite pattern whose magnitude is `n` units of 2^-24, if there is one. -/
def ofMagnitude? (n : Nat) : Option (BitVec 15) :=
  if n < 1024 then some (BitVec.ofNat 15 n)
  else
    let k := n.log2 - 10
    if k ≤ 29 ∧ n % 2 ^ k = 0 then some (BitVec.ofNat 5 (k + 1) ++ BitVec.ofNat 10 (n / 2 ^ k - 1024)) else none

/-- The exponent and fraction bits for a value in units of 2^-48, if binary16 represents it exactly. -/
def exactBits? (v : Int) : Option (BitVec 15) :=
  if v.natAbs % 2 ^ 24 = 0 then ofMagnitude? (v.natAbs / 2 ^ 24) else none

/-- Whether binary16 represents a value in units of 2^-48 exactly. -/
def representable (v : Int) : Bool := (exactBits? v).isSome

end Half

end Sys2Proof.Machine
end

