-- ==== Sys2Proof/Machine/Matrix.lean ====
section
/-! DEFINITION. The matrix tile engine (spec/43_matrix.md R250 to R262). GemmFn is a parameter of the spec whose only
asserted law is the exactness property R253. Here it is the value R253 gives wherever R253 gives one, and the free
value `Config.gemmFree` everywhere else (notes/assumptions/5.md). -/

namespace Sys2Proof.Machine

namespace Gemm

/-- The product A[i][k] * B[k][j] in units of 2^-48. -/
def product (A B : Tile) (i j k : Fin 4) : Int := Half.units (A.elem i k) * Half.units (B.elem k j)

/-- What is added up for element (i, j): the four products and C[i][j], in units of 2^-48. -/
def terms (A B C : Tile) (i j : Fin 4) : List Int :=
  [product A B i j 0, product A B i j 1, product A B i j 2, product A B i j 3, Half.units (C.elem i j) * 2 ^ 24]

/-- The sums of the nonempty parts of a list: every term, and every partial sum in any order of addition. -/
def partialSums : List Int → List Int
  | [] => []
  | v :: rest => v :: (partialSums rest ++ (partialSums rest).map (v + ·))

/-- E[i][j] in units of 2^-48 (R250). -/
def exactValue (A B C : Tile) (i j : Fin 4) : Int := (terms A B C i j).sum

/-- The four row or column numbers. -/
def indices : List (Fin 4) := [0, 1, 2, 3]

/-- Every element of a tile is finite. -/
def tileFinite (t : Tile) : Bool := indices.all fun r => indices.all fun c => Half.finite (t.elem r c)

/-- The premise of R253: finite operands, and for every (i, j) each product, each partial sum in any order, and the
final value exactly representable in binary16. -/
def exactCase (A B C : Tile) : Bool :=
  tileFinite A && tileFinite B && tileFinite C &&
    indices.all fun i => indices.all fun j => (partialSums (terms A B C i j)).all Half.representable

/-- The pattern of an exact value: its sign and bits, the sign of a zero taken from `free` (R253). -/
def exactElement (v : Int) (free : Half) : Half :=
  match Half.exactBits? v with
  | some bits => BitVec.ofBool (if v = 0 then Half.signBit free else decide (v < 0)) ++ bits
  | none => free

/-- The GemmFn that answers what R253 gives, and `free` where R253 is silent. Every GemmFn the spec allows is this one
for some `free`. -/
def ofFree (free : Tile → Tile → Tile → Tile) (A B C : Tile) : Tile :=
  if exactCase A B C then Tile.ofFn fun i j => exactElement (exactValue A B C i j) ((free A B C).elem i j)
  else free A B C

end Gemm

/-- `GemmFn(A, B, C)` of this Core (R250, R251). -/
def gemmFn (A B C : Tile) : Tile := Gemm.ofFree Config.gemmFree A B C

/-- All three operands are read before m[md] is written (R254). -/
def execGemm (md ma mb mc : MReg) (s : State) : Result :=
  .next (s.writeM md (gemmFn (s.readM ma) (s.readM mb) (s.readM mc))).advance

/-- The stride is checked before the address (R259, R262, R309). -/
def execLdm (md : MReg) (rs1 : XReg) (stride : BitVec 5) (imm : BitVec 11) (s : State) : Result :=
  let ea := tileAddress s rs1 imm
  if stride ≠ 0#5 then s.refuse .strideUnmodelled
  else s.access .tileLoad ea 32 (s.writeM md (s.mem.loadTile ea.toNat)).advance

/-- No partial tile is written on a fault (R260, R262, R309). -/
def execStm (md : MReg) (rs1 : XReg) (stride : BitVec 5) (imm : BitVec 11) (s : State) : Result :=
  let ea := tileAddress s rs1 imm
  if stride ≠ 0#5 then s.refuse .strideUnmodelled
  else s.access .tileStore ea 32 { s with mem := s.mem.storeTile ea.toNat (s.readM md) }.advance

end Sys2Proof.Machine
end

