-- ==== Sys2Proof/Machine/RegisterAlu.lean ====
section
/-! DEFINITION. The register-register ALU instructions (spec/40_alu.md R140 to R152). -/

namespace Sys2Proof.Machine

/-- R141. -/
def execAdd (rd rs1 rs2 : XReg) (s : State) : Result := aluRegisters Alu.add rd rs1 rs2 s

/-- R142. -/
def execSub (rd rs1 rs2 : XReg) (s : State) : Result := aluRegisters Alu.sub rd rs1 rs2 s

/-- R143. -/
def execXor (rd rs1 rs2 : XReg) (s : State) : Result := aluRegisters Alu.xor rd rs1 rs2 s

/-- R144. -/
def execOr (rd rs1 rs2 : XReg) (s : State) : Result := aluRegisters Alu.or rd rs1 rs2 s

/-- R145. -/
def execAnd (rd rs1 rs2 : XReg) (s : State) : Result := aluRegisters Alu.and rd rs1 rs2 s

/-- R146. -/
def execSll (rd rs1 rs2 : XReg) (s : State) : Result := aluRegisters Alu.sll rd rs1 rs2 s

/-- R147. -/
def execSrl (rd rs1 rs2 : XReg) (s : State) : Result := aluRegisters Alu.srl rd rs1 rs2 s

/-- R148. -/
def execSra (rd rs1 rs2 : XReg) (s : State) : Result := aluRegisters Alu.sra rd rs1 rs2 s

/-- R149. -/
def execSlt (rd rs1 rs2 : XReg) (s : State) : Result := aluRegisters Alu.slt rd rs1 rs2 s

/-- R150. -/
def execSltu (rd rs1 rs2 : XReg) (s : State) : Result := aluRegisters Alu.sltu rd rs1 rs2 s

/-- R151. -/
def execMul (rd rs1 rs2 : XReg) (s : State) : Result := aluRegisters Alu.mul rd rs1 rs2 s

/-- `mov` reads x[rs1] only (R23, R152). -/
def execMov (rd rs1 : XReg) (s : State) : Result := .next (s.writeX rd (s.readX rs1)).advance

end Sys2Proof.Machine
end

