-- ==== Sys2Proof/Syntax.lean ====
section
/-! DEFINITION. The instructions, one constructor for each row of spec/opcode_table.json. Register numbers are
indices, immediates are the encoded fields as bit vectors, not yet extended. -/

namespace Sys2Proof

/-- An instruction. Field names are those of the instruction rules. `imm` of a branch is the 13-bit byte offset and
`imm` of jal the 21-bit byte offset, each with its bit 0 written out (R97, R99). -/
inductive Instr where
  -- R format (R141 to R152)
  | add (rd rs1 rs2 : XReg)
  | sub (rd rs1 rs2 : XReg)
  | xor (rd rs1 rs2 : XReg)
  | or (rd rs1 rs2 : XReg)
  | and (rd rs1 rs2 : XReg)
  | sll (rd rs1 rs2 : XReg)
  | srl (rd rs1 rs2 : XReg)
  | sra (rd rs1 rs2 : XReg)
  | slt (rd rs1 rs2 : XReg)
  | sltu (rd rs1 rs2 : XReg)
  | mul (rd rs1 rs2 : XReg)
  | mov (rd rs1 : XReg)
  -- I format (R161 to R169)
  | addi (rd rs1 : XReg) (imm : BitVec 12)
  | xori (rd rs1 : XReg) (imm : BitVec 12)
  | ori (rd rs1 : XReg) (imm : BitVec 12)
  | andi (rd rs1 : XReg) (imm : BitVec 12)
  | slli (rd rs1 : XReg) (shamt : BitVec 5)
  | srli (rd rs1 : XReg) (shamt : BitVec 5)
  | srai (rd rs1 : XReg) (shamt : BitVec 5)
  | slti (rd rs1 : XReg) (imm : BitVec 12)
  | sltui (rd rs1 : XReg) (imm : BitVec 12)
  -- U format (R175)
  | lui (rd : XReg) (imm20 : BitVec 20)
  -- loads and stores (R200, R201)
  | lw (rd rs1 : XReg) (imm : BitVec 12)
  | sw (rs2 rs1 : XReg) (imm : BitVec 12)
  -- control transfer (R221 to R226)
  | beq (rs1 rs2 : XReg) (imm : BitVec 13)
  | bne (rs1 rs2 : XReg) (imm : BitVec 13)
  | blt (rs1 rs2 : XReg) (imm : BitVec 13)
  | bge (rs1 rs2 : XReg) (imm : BitVec 13)
  | jal (rd : XReg) (imm : BitVec 21)
  | jalr (rd rs1 : XReg) (imm : BitVec 12)
  -- matrix (R254, R259, R260)
  | gemm (md ma mb mc : MReg)
  | ldm (md : MReg) (rs1 : XReg) (stride : BitVec 5) (imm : BitVec 11)
  | stm (md : MReg) (rs1 : XReg) (stride : BitVec 5) (imm : BitVec 11)
  -- halt sentinel (R280)
  | halt
deriving DecidableEq, Repr

end Sys2Proof
end

