-- ==== Sys2Proof/Decode.lean ====
section
/-! DEFINITION. Decoding and encoding (spec/30_encoding.md R82 to R109), the opcode table of
spec/opcode_table.json as rows of mask and pattern, and the host's view of the decoder. Which opcodes, funct values
and field positions stand here is the spec's decision D9, D10, D13 to D16 and D38 (notes/assumptions/7.md). -/

namespace Sys2Proof

/-! ## The encoding parameters of R6, at their decided values -/

/-- OPC_GEMM (R84, decision D15). -/
def opcGemm : BitVec 7 := 0b0001011#7
/-- OPC_LDM (R84, decision D15). -/
def opcLdm : BitVec 7 := 0b0101011#7
/-- OPC_STM (R84, decision D15). -/
def opcStm : BitVec 7 := 0b1011011#7
/-- MOV_FUNCT7 (R103, decision D10). -/
def movFunct7 : BitVec 7 := 0b0000010#7

/-! ## Fields of a word (R85 to R93) -/

namespace Field

def opcode (w : Word) : BitVec 7 := w.extractLsb' 0 7
def rd (w : Word) : XReg := (w.extractLsb' 7 5).toFin
def funct3 (w : Word) : BitVec 3 := w.extractLsb' 12 3
def rs1 (w : Word) : XReg := (w.extractLsb' 15 5).toFin
def rs2 (w : Word) : XReg := (w.extractLsb' 20 5).toFin
def funct7 (w : Word) : BitVec 7 := w.extractLsb' 25 7
def shamt (w : Word) : BitVec 5 := w.extractLsb' 20 5

/-- The I and JALR immediate field, w[31:20] (R95). -/
def immI (w : Word) : BitVec 12 := w.extractLsb' 20 12

/-- The S immediate field (R96). -/
def immS (w : Word) : BitVec 12 := w.extractLsb' 25 7 ++ w.extractLsb' 7 5

/-- The B byte offset (R97). -/
def immB (w : Word) : BitVec 13 :=
  w.extractLsb' 31 1 ++ w.extractLsb' 7 1 ++ w.extractLsb' 25 6 ++ w.extractLsb' 8 4 ++ 0#1

/-- The U immediate field, w[31:12] (R98). -/
def immU (w : Word) : BitVec 20 := w.extractLsb' 12 20

/-- The J byte offset (R99). -/
def immJ (w : Word) : BitVec 21 :=
  w.extractLsb' 31 1 ++ w.extractLsb' 12 8 ++ w.extractLsb' 20 1 ++ w.extractLsb' 21 10 ++ 0#1

/-- gemm's register fields and reserved bits (R92). -/
def gemmRd (w : Word) : MReg := (w.extractLsb' 7 4).toFin
def gemmRa (w : Word) : MReg := (w.extractLsb' 11 4).toFin
def gemmRb (w : Word) : MReg := (w.extractLsb' 15 4).toFin
def gemmRc (w : Word) : MReg := (w.extractLsb' 19 4).toFin
def gemmReserved (w : Word) : BitVec 9 := w.extractLsb' 23 9

/-- The Matrix-Mem fields (R93, R100). -/
def tileRd (w : Word) : MReg := (w.extractLsb' 7 4).toFin
def tileRs1 (w : Word) : XReg := (w.extractLsb' 11 5).toFin
def tileStride (w : Word) : BitVec 5 := w.extractLsb' 16 5
def immM (w : Word) : BitVec 11 := w.extractLsb' 21 11

end Field

/-! ## Decoding (R102) -/

/-- Why a word has no meaning. Each is the one `DecodeError` of R300; the names are the model's
(notes/assumptions/11.md). -/
inductive DecodeReject where
  /-- The opcode is not in the table of R84 (R108). -/
  | unknownOpcode
  /-- Opcode 0x7F in a word other than 0xFFFFFFFF (R108, decision D14). -/
  | notTheSentinel
  /-- Opcode 0x33 with a (funct3, funct7) pair outside R103. -/
  | regFunct
  /-- mov with a nonzero rs2 field (R103). -/
  | movRs2
  /-- Opcode 0x13, funct3 0b001 or 0b101, with w[31:25] outside R104. -/
  | shiftFunct7
  /-- lw's opcode with funct3 other than 0b010 (R105). -/
  | loadFunct3
  /-- sw's opcode with funct3 other than 0b010 (R105). -/
  | storeFunct3
  /-- jalr's opcode with funct3 other than 0b000 (R105). -/
  | jalrFunct3
  /-- The branch opcode with a funct3 outside R106. -/
  | branchFunct3
  /-- gemm with nonzero w[31:23] (R107). -/
  | gemmReserved
  /-- Fewer than the 4 bytes a decoder always consumes (R83). -/
  | truncated
deriving DecidableEq, Repr

/-- The R-table (R103). -/
def decodeReg (w : Word) : Except DecodeReject Instr :=
  let rd := Field.rd w
  let rs1 := Field.rs1 w
  let rs2 := Field.rs2 w
  let f3 := Field.funct3 w
  let f7 := Field.funct7 w
  if f7 = 0b0000000#7 then
    if f3 = 0b000#3 then .ok (.add rd rs1 rs2)
    else if f3 = 0b001#3 then .ok (.sll rd rs1 rs2)
    else if f3 = 0b010#3 then .ok (.slt rd rs1 rs2)
    else if f3 = 0b011#3 then .ok (.sltu rd rs1 rs2)
    else if f3 = 0b100#3 then .ok (.xor rd rs1 rs2)
    else if f3 = 0b101#3 then .ok (.srl rd rs1 rs2)
    else if f3 = 0b110#3 then .ok (.or rd rs1 rs2)
    else .ok (.and rd rs1 rs2)
  else if f7 = 0b0100000#7 then
    if f3 = 0b000#3 then .ok (.sub rd rs1 rs2)
    else if f3 = 0b101#3 then .ok (.sra rd rs1 rs2)
    else .error .regFunct
  else if f7 = 0b0000001#7 then
    if f3 = 0b000#3 then .ok (.mul rd rs1 rs2) else .error .regFunct
  else if f7 = movFunct7 then
    if f3 = 0b000#3 then (if rs2 = 0 then .ok (.mov rd rs1) else .error .movRs2) else .error .regFunct
  else .error .regFunct

/-- The I-table (R104). -/
def decodeImm (w : Word) : Except DecodeReject Instr :=
  let rd := Field.rd w
  let rs1 := Field.rs1 w
  let imm := Field.immI w
  let f3 := Field.funct3 w
  let f7 := Field.funct7 w
  if f3 = 0b000#3 then .ok (.addi rd rs1 imm)
  else if f3 = 0b010#3 then .ok (.slti rd rs1 imm)
  else if f3 = 0b011#3 then .ok (.sltui rd rs1 imm)
  else if f3 = 0b100#3 then .ok (.xori rd rs1 imm)
  else if f3 = 0b110#3 then .ok (.ori rd rs1 imm)
  else if f3 = 0b111#3 then .ok (.andi rd rs1 imm)
  else if f3 = 0b001#3 then
    if f7 = 0b0000000#7 then .ok (.slli rd rs1 (Field.shamt w)) else .error .shiftFunct7
  else if f7 = 0b0000000#7 then .ok (.srli rd rs1 (Field.shamt w))
  else if f7 = 0b0100000#7 then .ok (.srai rd rs1 (Field.shamt w))
  else .error .shiftFunct7

/-- The B-table (R106). -/
def decodeBranch (w : Word) : Except DecodeReject Instr :=
  let f3 := Field.funct3 w
  if f3 = 0b000#3 then .ok (.beq (Field.rs1 w) (Field.rs2 w) (Field.immB w))
  else if f3 = 0b001#3 then .ok (.bne (Field.rs1 w) (Field.rs2 w) (Field.immB w))
  else if f3 = 0b100#3 then .ok (.blt (Field.rs1 w) (Field.rs2 w) (Field.immB w))
  else if f3 = 0b101#3 then .ok (.bge (Field.rs1 w) (Field.rs2 w) (Field.immB w))
  else .error .branchFunct3

/-- `decode(w)` (R102): total on every 32-bit word, in the order the rule writes. -/
def decode (w : Word) : Except DecodeReject Instr :=
  let opc := Field.opcode w
  let f3 := Field.funct3 w
  if w = 0xFFFFFFFF#32 then .ok .halt
  else if opc = 0x33#7 then decodeReg w
  else if opc = 0x13#7 then decodeImm w
  else if opc = 0x03#7 then
    if f3 = 0b010#3 then .ok (.lw (Field.rd w) (Field.rs1 w) (Field.immI w)) else .error .loadFunct3
  else if opc = 0x23#7 then
    if f3 = 0b010#3 then .ok (.sw (Field.rs2 w) (Field.rs1 w) (Field.immS w)) else .error .storeFunct3
  else if opc = 0x63#7 then decodeBranch w
  else if opc = 0x37#7 then .ok (.lui (Field.rd w) (Field.immU w))
  else if opc = 0x6F#7 then .ok (.jal (Field.rd w) (Field.immJ w))
  else if opc = 0x67#7 then
    if f3 = 0b000#3 then .ok (.jalr (Field.rd w) (Field.rs1 w) (Field.immI w)) else .error .jalrFunct3
  else if opc = opcGemm then
    if Field.gemmReserved w = 0#9 then
      .ok (.gemm (Field.gemmRd w) (Field.gemmRa w) (Field.gemmRb w) (Field.gemmRc w))
    else .error .gemmReserved
  else if opc = opcLdm then
    .ok (.ldm (Field.tileRd w) (Field.tileRs1 w) (Field.tileStride w) (Field.immM w))
  else if opc = opcStm then
    .ok (.stm (Field.tileRd w) (Field.tileRs1 w) (Field.tileStride w) (Field.immM w))
  else if opc = 0x7F#7 then .error .notTheSentinel
  else .error .unknownOpcode

/-- The word of four bytes, the first at the lowest address (R55, R82). -/
def wordOfBytes (b0 b1 b2 b3 : Byte) : Word := b3 ++ b2 ++ b1 ++ b0

/-- The decoder on a byte sequence, lowest address first: it consumes 4 bytes and answers the rest (R83). -/
def decodeBytes : List Byte → Except DecodeReject (Instr × List Byte)
  | b0 :: b1 :: b2 :: b3 :: rest => (decode (wordOfBytes b0 b1 b2 b3)).map (·, rest)
  | _ => .error .truncated

/-! ## Encoding, from the same formats -/

namespace Format

/-- The 5-bit field of a scalar register. -/
def xreg (r : XReg) : BitVec 5 := BitVec.ofFin r

/-- The 4-bit field of a matrix register. -/
def mreg (r : MReg) : BitVec 4 := BitVec.ofFin r

/-- R85. -/
def r (f7 : BitVec 7) (rs2 rs1 : XReg) (f3 : BitVec 3) (rd : XReg) (opc : BitVec 7) : Word :=
  f7 ++ xreg rs2 ++ xreg rs1 ++ f3 ++ xreg rd ++ opc

/-- R86. -/
def i (imm : BitVec 12) (rs1 : XReg) (f3 : BitVec 3) (rd : XReg) (opc : BitVec 7) : Word :=
  imm ++ xreg rs1 ++ f3 ++ xreg rd ++ opc

/-- R87. -/
def s (imm : BitVec 12) (rs2 rs1 : XReg) (f3 : BitVec 3) (opc : BitVec 7) : Word :=
  imm.extractLsb' 5 7 ++ xreg rs2 ++ xreg rs1 ++ f3 ++ imm.extractLsb' 0 5 ++ opc

/-- R88. Bit 0 of the offset has no place in the word. -/
def b (imm : BitVec 13) (rs2 rs1 : XReg) (f3 : BitVec 3) (opc : BitVec 7) : Word :=
  imm.extractLsb' 12 1 ++ imm.extractLsb' 5 6 ++ xreg rs2 ++ xreg rs1 ++ f3 ++ imm.extractLsb' 1 4
    ++ imm.extractLsb' 11 1 ++ opc

/-- R89. -/
def u (imm20 : BitVec 20) (rd : XReg) (opc : BitVec 7) : Word := imm20 ++ xreg rd ++ opc

/-- R90. Bit 0 of the offset has no place in the word. -/
def j (imm : BitVec 21) (rd : XReg) (opc : BitVec 7) : Word :=
  imm.extractLsb' 20 1 ++ imm.extractLsb' 1 10 ++ imm.extractLsb' 11 1 ++ imm.extractLsb' 12 8 ++ xreg rd ++ opc

/-- R92. -/
def matrixAlu (rc rb ra rd : MReg) (opc : BitVec 7) : Word :=
  0#9 ++ mreg rc ++ mreg rb ++ mreg ra ++ mreg rd ++ opc

/-- R93. -/
def matrixMem (imm : BitVec 11) (stride : BitVec 5) (rs1 : XReg) (rd : MReg) (opc : BitVec 7) : Word :=
  imm ++ stride ++ xreg rs1 ++ mreg rd ++ opc

end Format

/-- The word of an instruction. For a well-formed one, decoding gives the instruction back. -/
def encode (i : Instr) : Word :=
  match i with
  | .add rd rs1 rs2 => Format.r 0b0000000#7 rs2 rs1 0b000#3 rd 0x33#7
  | .sub rd rs1 rs2 => Format.r 0b0100000#7 rs2 rs1 0b000#3 rd 0x33#7
  | .xor rd rs1 rs2 => Format.r 0b0000000#7 rs2 rs1 0b100#3 rd 0x33#7
  | .or rd rs1 rs2 => Format.r 0b0000000#7 rs2 rs1 0b110#3 rd 0x33#7
  | .and rd rs1 rs2 => Format.r 0b0000000#7 rs2 rs1 0b111#3 rd 0x33#7
  | .sll rd rs1 rs2 => Format.r 0b0000000#7 rs2 rs1 0b001#3 rd 0x33#7
  | .srl rd rs1 rs2 => Format.r 0b0000000#7 rs2 rs1 0b101#3 rd 0x33#7
  | .sra rd rs1 rs2 => Format.r 0b0100000#7 rs2 rs1 0b101#3 rd 0x33#7
  | .slt rd rs1 rs2 => Format.r 0b0000000#7 rs2 rs1 0b010#3 rd 0x33#7
  | .sltu rd rs1 rs2 => Format.r 0b0000000#7 rs2 rs1 0b011#3 rd 0x33#7
  | .mul rd rs1 rs2 => Format.r 0b0000001#7 rs2 rs1 0b000#3 rd 0x33#7
  | .mov rd rs1 => Format.r movFunct7 0 rs1 0b000#3 rd 0x33#7
  | .addi rd rs1 imm => Format.i imm rs1 0b000#3 rd 0x13#7
  | .xori rd rs1 imm => Format.i imm rs1 0b100#3 rd 0x13#7
  | .ori rd rs1 imm => Format.i imm rs1 0b110#3 rd 0x13#7
  | .andi rd rs1 imm => Format.i imm rs1 0b111#3 rd 0x13#7
  | .slli rd rs1 shamt => Format.i (0b0000000#7 ++ shamt) rs1 0b001#3 rd 0x13#7
  | .srli rd rs1 shamt => Format.i (0b0000000#7 ++ shamt) rs1 0b101#3 rd 0x13#7
  | .srai rd rs1 shamt => Format.i (0b0100000#7 ++ shamt) rs1 0b101#3 rd 0x13#7
  | .slti rd rs1 imm => Format.i imm rs1 0b010#3 rd 0x13#7
  | .sltui rd rs1 imm => Format.i imm rs1 0b011#3 rd 0x13#7
  | .lui rd imm20 => Format.u imm20 rd 0x37#7
  | .lw rd rs1 imm => Format.i imm rs1 0b010#3 rd 0x03#7
  | .sw rs2 rs1 imm => Format.s imm rs2 rs1 0b010#3 0x23#7
  | .beq rs1 rs2 imm => Format.b imm rs2 rs1 0b000#3 0x63#7
  | .bne rs1 rs2 imm => Format.b imm rs2 rs1 0b001#3 0x63#7
  | .blt rs1 rs2 imm => Format.b imm rs2 rs1 0b100#3 0x63#7
  | .bge rs1 rs2 imm => Format.b imm rs2 rs1 0b101#3 0x63#7
  | .jal rd imm => Format.j imm rd 0x6F#7
  | .jalr rd rs1 imm => Format.i imm rs1 0b000#3 rd 0x67#7
  | .gemm md ma mb mc => Format.matrixAlu mc mb ma md opcGemm
  | .ldm md rs1 stride imm => Format.matrixMem imm stride rs1 md opcLdm
  | .stm md rs1 stride imm => Format.matrixMem imm stride rs1 md opcStm
  | .halt => 0xFFFFFFFF#32

/-- The four bytes of a word, lowest address first (R55). -/
def bytesOfWord (w : Word) : List Byte :=
  [w.extractLsb' 0 8, w.extractLsb' 8 8, w.extractLsb' 16 8, w.extractLsb' 24 8]

/-! ## The opcode table -/

/-- The mnemonic of an instruction in spec/opcode_table.json. -/
def Instr.mnemonic (i : Instr) : String :=
  match i with
  | .add _ _ _ => "add" | .sub _ _ _ => "sub" | .xor _ _ _ => "xor" | .or _ _ _ => "or"
  | .and _ _ _ => "and" | .sll _ _ _ => "sll" | .srl _ _ _ => "srl" | .sra _ _ _ => "sra"
  | .slt _ _ _ => "slt" | .sltu _ _ _ => "sltu" | .mul _ _ _ => "mul" | .mov _ _ => "mov"
  | .addi _ _ _ => "addi" | .xori _ _ _ => "xori" | .ori _ _ _ => "ori" | .andi _ _ _ => "andi"
  | .slli _ _ _ => "slli" | .srli _ _ _ => "srli" | .srai _ _ _ => "srai"
  | .slti _ _ _ => "slti" | .sltui _ _ _ => "sltui" | .lui _ _ => "lui"
  | .lw _ _ _ => "lw" | .sw _ _ _ => "sw"
  | .beq _ _ _ => "beq" | .bne _ _ _ => "bne" | .blt _ _ _ => "blt" | .bge _ _ _ => "bge"
  | .jal _ _ => "jal" | .jalr _ _ _ => "jalr"
  | .gemm _ _ _ _ => "gemm" | .ldm _ _ _ _ => "ld.m" | .stm _ _ _ _ => "st.m" | .halt => "halt"

/-- One row of spec/opcode_table.json: a word is of the row when its bits under `mask` are `pattern`. -/
structure OpcodeRow where
  mnemonic : String
  pattern : Word
  mask : Word
deriving DecidableEq, Repr

/-- The row's words. -/
def OpcodeRow.matchesWord (row : OpcodeRow) (w : Word) : Bool := w &&& row.mask == row.pattern

/-- The R-format rows. -/
def opcodeRowsReg : List OpcodeRow :=
  [⟨"add", 0x00000033, 0xFE00707F⟩, ⟨"sub", 0x40000033, 0xFE00707F⟩, ⟨"sll", 0x00001033, 0xFE00707F⟩,
   ⟨"slt", 0x00002033, 0xFE00707F⟩, ⟨"sltu", 0x00003033, 0xFE00707F⟩, ⟨"xor", 0x00004033, 0xFE00707F⟩,
   ⟨"srl", 0x00005033, 0xFE00707F⟩, ⟨"sra", 0x40005033, 0xFE00707F⟩, ⟨"or", 0x00006033, 0xFE00707F⟩,
   ⟨"and", 0x00007033, 0xFE00707F⟩, ⟨"mul", 0x02000033, 0xFE00707F⟩, ⟨"mov", 0x04000033, 0xFFF0707F⟩]

/-- The I-format arithmetic rows. -/
def opcodeRowsImm : List OpcodeRow :=
  [⟨"addi", 0x00000013, 0x0000707F⟩, ⟨"slti", 0x00002013, 0x0000707F⟩, ⟨"sltui", 0x00003013, 0x0000707F⟩,
   ⟨"xori", 0x00004013, 0x0000707F⟩, ⟨"ori", 0x00006013, 0x0000707F⟩, ⟨"andi", 0x00007013, 0x0000707F⟩,
   ⟨"slli", 0x00001013, 0xFE00707F⟩, ⟨"srli", 0x00005013, 0xFE00707F⟩, ⟨"srai", 0x40005013, 0xFE00707F⟩]

/-- The remaining rows. -/
def opcodeRowsRest : List OpcodeRow :=
  [⟨"lw", 0x00002003, 0x0000707F⟩, ⟨"sw", 0x00002023, 0x0000707F⟩, ⟨"beq", 0x00000063, 0x0000707F⟩,
   ⟨"bne", 0x00001063, 0x0000707F⟩, ⟨"blt", 0x00004063, 0x0000707F⟩, ⟨"bge", 0x00005063, 0x0000707F⟩,
   ⟨"lui", 0x00000037, 0x0000007F⟩, ⟨"jal", 0x0000006F, 0x0000007F⟩, ⟨"jalr", 0x00000067, 0x0000707F⟩,
   ⟨"gemm", 0x0000000B, 0xFF80007F⟩, ⟨"ld.m", 0x0000002B, 0x0000007F⟩, ⟨"st.m", 0x0000005B, 0x0000007F⟩,
   ⟨"halt", 0xFFFFFFFF, 0xFFFFFFFF⟩]

/-- spec/opcode_table.json. -/
def opcodeTable : List OpcodeRow := opcodeRowsReg ++ opcodeRowsImm ++ opcodeRowsRest

/-! ## The host's view of the decoder -/

/-- The instruction the decoder reads from an instruction whose bits are `w`, the bits from `nbits` up being 0:
its four bytes, lowest address first, are given to `decodeBytes`. -/
def decodeTableWord (nbits w : Nat) : Option Instr :=
  match decodeBytes (bytesOfWord (BitVec.ofNat 32 (w % 2 ^ nbits))) with
  | .ok (i, _) => some i
  | .error _ => none

end Sys2Proof
end

