-- ==== Sys2Proof/Machine/Fetch.lean ====
section
/-! DEFINITION. Fetch and decode, the front of a step (spec/60_exceptions.md R301 to R303, R311), and placing a word
where the next step fetches. -/

namespace Sys2Proof.Machine

/-- The instruction at the pc, or the fault its fetch or decode raises: fetch alignment, fetch bounds, then decode
(R309, R311). -/
def State.fetchDecode (s : State) : Except Fault Instr :=
  match s.fetch with
  | .error f => .error f
  | .ok w =>
    match decode w with
    | .error _ => .error (.decodeError s.pc w)
    | .ok i => .ok i

/-- A state with a word at the pc and status Running, so that the next step fetches that word (notes/assumptions/8.md).
The word has its bits from `nbits` up zero. -/
def State.placeWord (s : State) (nbits w : Nat) : State :=
  { s with mem := s.mem.writeBytes s.pc.toNat (bytesOfWord (BitVec.ofNat 32 (w % 2 ^ nbits))), status := .running }

end Sys2Proof.Machine
end

