-- ==== Sys2Proof/Machine/Step.lean ====
section
/-! DEFINITION. `Core::step` (spec/60_exceptions.md R309, R311, R313). Its StepOutcome is the status of the next
state. -/

namespace Sys2Proof.Machine

/-- One instruction of a Running Core: fetch, decode, execute (R311). -/
def cycle (s : State) : Host.Outcome State Fault Refusal :=
  match s.fetchDecode with
  | .error f => s.takeFault f
  | .ok i => exec i s

/-- `Core::step()`. A Halted, Faulted or Refused Core executes nothing and changes nothing (R313); what a refusal leaves
is no ground for a claim about a run (R306; notes/assumptions/4.md). -/
def step (s : State) : Host.Outcome State Fault Refusal :=
  match s.status with
  | .running => cycle s
  | .halted => .next s
  | .faulted _ => .next s
  | .refused _ _ => .next s

/-- The state whose next step runs the instruction with bits `w` (notes/assumptions/8.md). -/
def State.withFetchWord (s : State) (nbits w : Nat) : State := s.placeWord nbits w

end Sys2Proof.Machine
end

