-- ==== Sys2Proof/Machine/Codec.lean ====
section
/-! DEFINITION. The bitfield codec (spec/30_encoding.md R80 to R82). A bit sequence is a list of Bools, element j
being bit r[j] of the rules. -/

namespace Sys2Proof.Machine

/-- The bits of one byte from bit 7 down to bit 0 (R80). -/
def bitsMsbFirst (b : Byte) : List Bool :=
  [b.getLsbD 7, b.getLsbD 6, b.getLsbD 5, b.getLsbD 4, b.getLsbD 3, b.getLsbD 2, b.getLsbD 1, b.getLsbD 0]

/-- `bits_of(B)`: the source "computes MSB-first per byte, then reverses the whole sequence" (R80). -/
def bitsOf (bytes : List Byte) : List Bool := (bytes.flatMap bitsMsbFirst).reverse

/-- `value_of(r, false)`: bit 0 of the sequence is the least significant (R81). -/
def unsignedValueOf : List Bool → Nat
  | [] => 0
  | b :: rest => b.toNat + 2 * unsignedValueOf rest

/-- `value_of(r, signed)` (R81): the signed value takes the sequence's own length as the bit width, so it
subtracts 2^L when the last bit is set. -/
def valueOf (r : List Bool) (signed : Bool) : Int :=
  if signed = true ∧ r.getLast? = some true then (unsignedValueOf r : Int) - 2 ^ r.length
  else unsignedValueOf r

end Sys2Proof.Machine
end

