-- ==== Sys2Proof/Machine/Pseudo.lean ====
section
/-! DEFINITION. The pseudo-instructions as the instructions they expand to, and the offset a branch or jump encodes
(spec/30_encoding.md R113 to R115). The assembler is no part of the hardware (spec/00_scope.md R5;
notes/assumptions/12.md). -/

namespace Sys2Proof.Machine

/-- `sp` is x2 (R22). -/
def sp : XReg := 2

namespace Pseudo

/-- `imm` fits in 12 signed bits. -/
def fits12 (imm : Int) : Bool := decide (-2048 ≤ imm ∧ imm ≤ 2047)

/-- upper = (imm + 2^11) >> 12 (R114). -/
def liUpper (imm : Int) : Int := (imm + 2 ^ 11) / 2 ^ 12

/-- The two-instruction form of li: lui rd, upper mod 2^20; addi rd, rd, imm & 0xFFF (R114). -/
def liLong (rd : XReg) (imm : Int) : List Instr :=
  [.lui rd (BitVec.ofInt 20 (liUpper imm)), .addi rd rd (BitVec.ofInt 12 imm)]

/-- `li rd, imm` (R114). -/
def li (rd : XReg) (imm : Int) : List Instr :=
  if fits12 imm then [.addi rd 0 (BitVec.ofInt 12 imm)] else liLong rd imm

/-- `push rd` (R115). -/
def push (rd : XReg) : List Instr := [.addi sp sp (-4), .sw rd sp 0]

/-- `pop rd` (R115). -/
def pop (rd : XReg) : List Instr := [.lw rd sp 0, .addi sp sp 4]

/-- The byte offset from a branch or jump at `address` to `target` (R113). -/
def offsetTo (address target : Word) : Int := (target.toNat : Int) - address.toNat

end Pseudo

end Sys2Proof.Machine
end

