-- ==== Sys2Proof/Machine/Construct.lean ====
section
/-! DEFINITION. `Core::new(memory_image, control_register)` (spec/70_reset_and_hazards.md R330; spec/10_state.md R34).
It is the only reset. -/

namespace Sys2Proof.Machine

/-- Memory with the cells of a draw that lie inside it written; of two cells for one address the first counts. -/
def Memory.writeCells (mem : Memory) : List Host.Cell → Memory
  | [] => mem
  | (k, v) :: rest => if k < mem.size then (mem.writeCells rest).writeByte k v else mem.writeCells rest

/-- Construction from an image, a ControlRegister and MEM_SIZE. `draw` is the free draw of the bytes the image does
not cover: any bytes at all (R34, decision D5; notes/assumptions/2.md). `none` where construction fails and no Core
exists (R330). -/
def coreNew (image : List Byte) (ctrl : ControlRegister) (memSize : Nat) (draw : List Host.Cell)
    (params : Params) : Option State :=
  if image.length ≤ memSize ∧ memSize ≤ 2 ^ 31 then
    some {
      x := (Vector.replicate 32 0#32).set 2 ctrl.stackPointer
      m := Vector.replicate 16 Tile.zero
      pc := ctrl.startAddress
      mem := (Memory.writeCells { size := memSize, cells := [] } draw).writeBytes 0 image
      ctrl := ctrl
      status := .running
      params := params }
  else none

end Sys2Proof.Machine
end

