-- ==== Sys2Proof/Machine/Run.lean ====
section
/-! DEFINITION. The host's other operations: `Core::run(max_iterations)` and the read accessors
(spec/60_exceptions.md R312, R314; spec/70_reset_and_hazards.md R336). -/

namespace Sys2Proof.Machine

/-- RunOutcome (R312). -/
inductive RunOutcome where
  | halted
  | iterationLimitReached
  | error (f : Fault)
  | refused (reason : RefuseReason) (pc : Word)
deriving DecidableEq, Repr

/-- What `run` returns for the status its loop ends with (R312). -/
def outcomeOf (status : Status) : RunOutcome :=
  match status with
  | .running => .iterationLimitReached
  | .halted => .halted
  | .faulted f => .error f
  | .refused reason pc => .refused reason pc

/-- `Core::run`: steps while status is Running and fewer than `maxIterations` have run; the outcome, the state after,
and how many steps this call ran. A step of a Running Core always answers a next state, so the two last arms are
never taken. -/
def runCounting (maxIterations : Nat) (s : State) : RunOutcome × State × Nat :=
  match maxIterations with
  | 0 => (outcomeOf s.status, s, 0)
  | n + 1 =>
    if s.status = .running then
      match step s with
      | .next t => ((runCounting n t).1, (runCounting n t).2.1, (runCounting n t).2.2 + 1)
      | .fault f => (.error f, s, 0)
      | .refused _ => (outcomeOf s.status, s, 0)
    else (outcomeOf s.status, s, 0)

/-- The outcome of `run` and the state after it. -/
def run (maxIterations : Nat) (s : State) : RunOutcome × State :=
  ((runCounting maxIterations s).1, (runCounting maxIterations s).2.1)

/-- How many steps the call `run(maxIterations)` runs. -/
def iterations (maxIterations : Nat) (s : State) : Nat := (runCounting maxIterations s).2.2

namespace Accessors

/-- x0..x31. -/
def scalarRegisters (s : State) : List Word := s.x.toList

/-- m0..m15. -/
def matrixRegisters (s : State) : List Tile := s.m.toList

def programCounter (s : State) : Word := s.pc

def runStatus (s : State) : Status := s.status

/-- `n` bytes of memory from address `a` on, cut at the end of memory. Bytes outside the image that nothing has written
are shown like any other: R336 does not say whether the host can observe them, and R314 does not say what a dump covers
(DESIGN CHOICE, notes/assumptions/13.md). -/
def memoryDump (s : State) (a n : Nat) : List Byte := s.mem.readBytes a (min n (s.mem.size - a))

end Accessors

end Sys2Proof.Machine
end

