-- ==== Sys2Proof/WellFormed.lean ====
section
/-! DEFINITION. Which instructions an encoding exists for. Register indices and field widths are bounded by their
types; the one check left is that a branch or jump offset is even (spec/30_encoding.md R97, R99). -/

namespace Sys2Proof

/-- Bit 0 of a byte offset is 0 ("even offsets only", R97, R99). -/
def evenOffset {n : Nat} (imm : BitVec n) : Bool := !imm.getLsbD 0

/-- An instruction some word encodes. -/
def Instr.wellFormed (i : Instr) : Bool :=
  match i with
  | .beq _ _ imm => evenOffset imm
  | .bne _ _ imm => evenOffset imm
  | .blt _ _ imm => evenOffset imm
  | .bge _ _ imm => evenOffset imm
  | .jal _ imm => evenOffset imm
  | .add _ _ _ | .sub _ _ _ | .xor _ _ _ | .or _ _ _ | .and _ _ _ | .sll _ _ _ | .srl _ _ _ | .sra _ _ _
  | .slt _ _ _ | .sltu _ _ _ | .mul _ _ _ | .mov _ _ => true
  | .addi _ _ _ | .xori _ _ _ | .ori _ _ _ | .andi _ _ _ | .slli _ _ _ | .srli _ _ _ | .srai _ _ _
  | .slti _ _ _ | .sltui _ _ _ | .lui _ _ => true
  | .lw _ _ _ | .sw _ _ _ | .jalr _ _ _ => true
  | .gemm _ _ _ _ | .ldm _ _ _ _ | .stm _ _ _ _ | .halt => true

end Sys2Proof
end

