-- ==== Sys2Proof/Safety.lean ====
section
/-! DEFINITION. The terms claims are stated in: what an instruction writes and accesses (spec/10_state.md R23, R26;
spec/20_memory.md R51), the invariant of the machine, and what counts as a safe run. -/

namespace Sys2Proof

/-- The scalar register an instruction writes (R23). -/
def Instr.xDest (i : Instr) : Option XReg :=
  match i with
  | .add rd _ _ | .sub rd _ _ | .xor rd _ _ | .or rd _ _ | .and rd _ _ | .sll rd _ _ | .srl rd _ _
  | .sra rd _ _ | .slt rd _ _ | .sltu rd _ _ | .mul rd _ _ | .mov rd _ => some rd
  | .addi rd _ _ | .xori rd _ _ | .ori rd _ _ | .andi rd _ _ | .slli rd _ _ | .srli rd _ _ | .srai rd _ _
  | .slti rd _ _ | .sltui rd _ _ | .lui rd _ => some rd
  | .lw rd _ _ | .jal rd _ | .jalr rd _ _ => some rd
  | .sw _ _ _ | .beq _ _ _ | .bne _ _ _ | .blt _ _ _ | .bge _ _ _ => none
  | .gemm _ _ _ _ | .ldm _ _ _ _ | .stm _ _ _ _ | .halt => none

/-- The matrix register an instruction writes (R26). -/
def Instr.mDest (i : Instr) : Option MReg :=
  match i with
  | .gemm md _ _ _ | .ldm md _ _ _ => some md
  | .add _ _ _ | .sub _ _ _ | .xor _ _ _ | .or _ _ _ | .and _ _ _ | .sll _ _ _ | .srl _ _ _
  | .sra _ _ _ | .slt _ _ _ | .sltu _ _ _ | .mul _ _ _ | .mov _ _ => none
  | .addi _ _ _ | .xori _ _ _ | .ori _ _ _ | .andi _ _ _ | .slli _ _ _ | .srli _ _ _ | .srai _ _ _
  | .slti _ _ _ | .sltui _ _ _ | .lui _ _ => none
  | .lw _ _ _ | .sw _ _ _ | .beq _ _ _ | .bne _ _ _ | .blt _ _ _ | .bge _ _ _ | .jal _ _ | .jalr _ _ _ => none
  | .stm _ _ _ _ | .halt => none

/-- Branches and jumps: the instructions that may set pc to another value than pc + 4. -/
def Instr.transfersControl (i : Instr) : Bool :=
  match i with
  | .beq _ _ _ | .bne _ _ _ | .blt _ _ _ | .bge _ _ _ | .jal _ _ | .jalr _ _ _ => true
  | .add _ _ _ | .sub _ _ _ | .xor _ _ _ | .or _ _ _ | .and _ _ _ | .sll _ _ _ | .srl _ _ _
  | .sra _ _ _ | .slt _ _ _ | .sltu _ _ _ | .mul _ _ _ | .mov _ _ => false
  | .addi _ _ _ | .xori _ _ _ | .ori _ _ _ | .andi _ _ _ | .slli _ _ _ | .srli _ _ _ | .srai _ _ _
  | .slti _ _ _ | .sltui _ _ _ | .lui _ _ => false
  | .lw _ _ _ | .sw _ _ _ | .gemm _ _ _ _ | .ldm _ _ _ _ | .stm _ _ _ _ | .halt => false

/-- ld.m or st.m with a nonzero stride field (R262). -/
def Instr.strided (i : Instr) : Bool :=
  match i with
  | .ldm _ _ stride _ | .stm _ _ stride _ => decide (stride ≠ 0#5)
  | .add _ _ _ | .sub _ _ _ | .xor _ _ _ | .or _ _ _ | .and _ _ _ | .sll _ _ _ | .srl _ _ _
  | .sra _ _ _ | .slt _ _ _ | .sltu _ _ _ | .mul _ _ _ | .mov _ _ => false
  | .addi _ _ _ | .xori _ _ _ | .ori _ _ _ | .andi _ _ _ | .slli _ _ _ | .srli _ _ _ | .srai _ _ _
  | .slti _ _ _ | .sltui _ _ _ | .lui _ _ => false
  | .lw _ _ _ | .sw _ _ _ | .beq _ _ _ | .bne _ _ _ | .blt _ _ _ | .bge _ _ _ | .jal _ _ | .jalr _ _ _ => false
  | .gemm _ _ _ _ | .halt => false

namespace Machine

/-- A data access: its kind, its address and its size in bytes. -/
structure DataAccess where
  kind : AccessKind
  addr : Word
  size : Nat
deriving DecidableEq, Repr

/-- The one data access an instruction makes in a state (R51). -/
def dataAccess (i : Instr) (s : State) : Option DataAccess :=
  match i with
  | .lw _ rs1 imm => some ⟨.load, wordAddress s rs1 imm, 4⟩
  | .sw _ rs1 imm => some ⟨.store, wordAddress s rs1 imm, 4⟩
  | .ldm _ rs1 _ imm => some ⟨.tileLoad, tileAddress s rs1 imm, 32⟩
  | .stm _ rs1 _ imm => some ⟨.tileStore, tileAddress s rs1 imm, 32⟩
  | .add _ _ _ | .sub _ _ _ | .xor _ _ _ | .or _ _ _ | .and _ _ _ | .sll _ _ _ | .srl _ _ _
  | .sra _ _ _ | .slt _ _ _ | .sltu _ _ _ | .mul _ _ _ | .mov _ _ => none
  | .addi _ _ _ | .xori _ _ _ | .ori _ _ _ | .andi _ _ _ | .slli _ _ _ | .srli _ _ _ | .srai _ _ _
  | .slti _ _ _ | .sltui _ _ _ | .lui _ _ => none
  | .beq _ _ _ | .bne _ _ _ | .blt _ _ _ | .bge _ _ _ | .jal _ _ | .jalr _ _ _ => none
  | .gemm _ _ _ _ | .halt => none

/-- Whether address `a` is one of the bytes instruction `i` stores to in state `s`: 4 from the effective address of
sw, 32 from that of st.m, none otherwise. -/
def storesTo (i : Instr) (s : State) (a : Nat) : Prop :=
  match i with
  | .sw _ rs1 imm => (wordAddress s rs1 imm).toNat ≤ a ∧ a < (wordAddress s rs1 imm).toNat + 4
  | .stm _ rs1 _ imm => (tileAddress s rs1 imm).toNat ≤ a ∧ a < (tileAddress s rs1 imm).toNat + 32
  | .add _ _ _ | .sub _ _ _ | .xor _ _ _ | .or _ _ _ | .and _ _ _ | .sll _ _ _ | .srl _ _ _
  | .sra _ _ _ | .slt _ _ _ | .sltu _ _ _ | .mul _ _ _ | .mov _ _ => False
  | .addi _ _ _ | .xori _ _ _ | .ori _ _ _ | .andi _ _ _ | .slli _ _ _ | .srli _ _ _ | .srai _ _ _
  | .slti _ _ _ | .sltui _ _ _ | .lui _ _ => False
  | .lw _ _ _ | .beq _ _ _ | .bne _ _ _ | .blt _ _ _ | .bge _ _ _ | .jal _ _ | .jalr _ _ _ => False
  | .gemm _ _ _ _ | .ldm _ _ _ _ | .halt => False

/-- An access may proceed: aligned to 4 and wholly inside memory (R53, R54). -/
def State.accessible (s : State) (a : Word) (n : Nat) : Prop := a.toNat % 4 = 0 ∧ a.toNat + n ≤ s.mem.size

/-- The access a recorded fault is about is one that the instruction at the pc, or its fetch, makes (R300). -/
def State.makesAccess (s : State) (kind : AccessKind) (a : Word) (n : Nat) : Prop :=
  (kind = .fetch ∧ a = s.pc ∧ n = 4) ∨
  ∃ i, s.fetchDecode = .ok i ∧ i.strided = false ∧ dataAccess i s = some ⟨kind, a, n⟩

/-- A recorded fault is true of the state it is recorded in: the pc is the faulting instruction's own, and the cause
of R300 can be read off the state, since a faulting step changes nothing else (R308). -/
def State.explainsFault (s : State) (f : Fault) : Prop :=
  match f with
  | .decodeError pc w => pc = s.pc ∧ s.fetch = .ok w ∧ ∃ r, decode w = .error r
  | .alignmentFault pc kind a => pc = s.pc ∧ a.toNat % 4 ≠ 0 ∧ ∃ n, s.makesAccess kind a n
  | .boundsFault pc kind a n => pc = s.pc ∧ a.toNat % 4 = 0 ∧ s.mem.size < a.toNat + n ∧ s.makesAccess kind a n
  | .registerIndexFault _ _ => False

/-- The status is true of the state: a Halted Core's pc is at the halt word (R280), a Faulted or Refused Core's
record is explained by its state (R300, R306, R308). -/
def State.explainsStatus (s : State) : Prop :=
  match s.status with
  | .running => True
  | .halted => s.fetch = .ok 0xFFFFFFFF#32
  | .faulted f => s.explainsFault f
  | .refused .strideUnmodelled pc => pc = s.pc ∧ ∃ i, s.fetchDecode = .ok i ∧ i.strided = true

/-- The invariant of the machine: memory in canonical form, and a status that is true of the state. -/
def State.Inv (s : State) : Prop := s.mem.wf ∧ s.explainsStatus

/-- A state a claim about a program may accept: the Core runs or has halted. -/
def State.Safe (s : State) : Prop := s.status = .running ∨ s.status = .halted

/-- A run of up to `k` steps that neither faults nor is refused. Nothing is claimed of a run past a refusal (R306). -/
def SafeRun (k : Nat) (s : State) : Prop := ∀ n, n ≤ k → (run n s).2.Safe

end Machine

end Sys2Proof
end

