-- ==== Sys2Proof/Certificates/Slice0/Obligations.lean ====
section
/-! DEFINITION. The statements for the provers. The terms of `Sys2Proof.Spec` restate the spec's notation in numbers,
so that a statement does not repeat the definition it is about. -/

namespace Sys2Proof.Spec

open Sys2Proof.Machine

/-- trunc32(i) (R9). -/
def trunc32 (i : Int) : Word := BitVec.ofInt 32 i

/-- The R format by bit weights (R85). -/
def regWord (f7 : Nat) (rs2 rs1 : XReg) (f3 : Nat) (rd : XReg) (opc : Nat) : Word :=
  BitVec.ofNat 32 (f7 * 2 ^ 25 + rs2.val * 2 ^ 20 + rs1.val * 2 ^ 15 + f3 * 2 ^ 12 + rd.val * 2 ^ 7 + opc)

/-- The I format by bit weights; `field` is w[31:20] (R86). -/
def immWord (field : Nat) (rs1 : XReg) (f3 : Nat) (rd : XReg) (opc : Nat) : Word :=
  BitVec.ofNat 32 (field * 2 ^ 20 + rs1.val * 2 ^ 15 + f3 * 2 ^ 12 + rd.val * 2 ^ 7 + opc)

/-- The S format by bit weights (R87). -/
def storeWord (imm : BitVec 12) (rs2 rs1 : XReg) (f3 opc : Nat) : Word :=
  BitVec.ofNat 32 (imm.toNat / 2 ^ 5 * 2 ^ 25 + rs2.val * 2 ^ 20 + rs1.val * 2 ^ 15 + f3 * 2 ^ 12
    + imm.toNat % 2 ^ 5 * 2 ^ 7 + opc)

/-- The B format by bit weights (R88). -/
def branchWord (imm : BitVec 13) (rs2 rs1 : XReg) (f3 : Nat) : Word :=
  BitVec.ofNat 32 (imm.toNat / 2 ^ 12 * 2 ^ 31 + imm.toNat / 2 ^ 5 % 2 ^ 6 * 2 ^ 25 + rs2.val * 2 ^ 20
    + rs1.val * 2 ^ 15 + f3 * 2 ^ 12 + imm.toNat / 2 % 2 ^ 4 * 2 ^ 8 + imm.toNat / 2 ^ 11 % 2 * 2 ^ 7 + 0x63)

/-- The J format by bit weights (R90). -/
def jumpWord (imm : BitVec 21) (rd : XReg) : Word :=
  BitVec.ofNat 32 (imm.toNat / 2 ^ 20 * 2 ^ 31 + imm.toNat / 2 % 2 ^ 10 * 2 ^ 21 + imm.toNat / 2 ^ 11 % 2 * 2 ^ 20
    + imm.toNat / 2 ^ 12 % 2 ^ 8 * 2 ^ 12 + rd.val * 2 ^ 7 + 0x6F)

/-- The Matrix-ALU format by bit weights; `reserved` is w[31:23] (R92). -/
def gemmWord (reserved : Nat) (rc rb ra rd : MReg) : Word :=
  BitVec.ofNat 32 (reserved * 2 ^ 23 + rc.val * 2 ^ 19 + rb.val * 2 ^ 15 + ra.val * 2 ^ 11 + rd.val * 2 ^ 7 + 0x0B)

/-- The Matrix-Mem format by bit weights (R93). -/
def tileWord (imm : BitVec 11) (stride : BitVec 5) (rs1 : XReg) (rd : MReg) (opc : Nat) : Word :=
  BitVec.ofNat 32 (imm.toNat * 2 ^ 21 + stride.toNat * 2 ^ 16 + rs1.val * 2 ^ 11 + rd.val * 2 ^ 7 + opc)

/-- A word decodes to an instruction, and in state `s` that instruction completes in state `t`. -/
def Completes (w : Word) (i : Instr) (s t : State) : Prop := decode w = .ok i ∧ exec i s = .next t

/-- `s` with x[rd] written and pc advanced, all else unchanged. -/
def retireX (s : State) (rd : XReg) (v : Word) : State := { s with x := s.x.set rd v, pc := s.pc + 4 }

/-- `s` with m[md] written and pc advanced, all else unchanged. -/
def retireM (s : State) (md : MReg) (t : Tile) : State := { s with m := s.m.set md t, pc := s.pc + 4 }

/-- `s` with status Faulted(f), all else unchanged (R308). -/
def faulted (s : State) (f : Fault) : State := { s with status := .faulted f }

/-- ea = x[rs1] + sext(imm), modulo 2^32 (R52). -/
def address {n : Nat} (s : State) (rs1 : XReg) (imm : BitVec n) : Word := s.readX rs1 + BitVec.ofInt 32 imm.toInt

/-- The little-endian 32-bit value of the bytes at `a` (R55). -/
def wordAt (s : State) (a : Nat) : Word :=
  BitVec.ofNat 32 ((s.readByte a).toNat + (s.readByte (a + 1)).toNat * 2 ^ 8 + (s.readByte (a + 2)).toNat * 2 ^ 16
    + (s.readByte (a + 3)).toNat * 2 ^ 24)

/-- The tile at `a`: row-major, each element little-endian (R258). -/
def tileAt (s : State) (a : Nat) : Tile :=
  Tile.ofFn fun r c => BitVec.ofNat 16 ((s.readByte (a + 2 * (4 * r.val + c.val))).toNat
    + (s.readByte (a + 2 * (4 * r.val + c.val) + 1)).toNat * 2 ^ 8)

/-- `t` is `s` after a store of `n` bytes at `a` that advances pc: byte k of them is `byte k`, every other byte of
memory and every other field is unchanged. -/
def StoredBytes (s t : State) (a n : Nat) (byte : Nat → Byte) : Prop :=
  (∃ mem, t = { s with mem := mem, pc := s.pc + 4 } ∧ mem.size = s.mem.size) ∧
  (∀ k, k < n → t.readByte (a + k) = byte k) ∧
  ∀ x, x < a ∨ a + n ≤ x → t.readByte x = s.readByte x

/-- The three ways an access of `n` bytes at `ea` by instruction `i` ends: AlignmentFault first, then BoundsFault,
then `completes` (R53, R54, R309). -/
def AccessEnds (i : Instr) (s : State) (kind : AccessKind) (ea : Word) (n : Nat) (completes : Prop) : Prop :=
  (ea.toNat % 4 ≠ 0 → exec i s = .next (faulted s (.alignmentFault s.pc kind ea))) ∧
  (ea.toNat % 4 = 0 → s.mem.size < ea.toNat + n → exec i s = .next (faulted s (.boundsFault s.pc kind ea n))) ∧
  (ea.toNat % 4 = 0 → ea.toNat + n ≤ s.mem.size → completes)

/-- A branch with condition `taken` completes: pc plus the byte offset, or pc plus 4, all else unchanged (R220). -/
def BranchCompletes (w : Word) (i : Instr) (s : State) (imm : BitVec 13) (taken : Prop) : Prop :=
  decode w = .ok i ∧
  (taken → exec i s = .next { s with pc := s.pc + BitVec.ofInt 32 imm.toInt }) ∧
  (¬ taken → exec i s = .next { s with pc := s.pc + 4 })

/-- "d < 0" for the comparator's difference (R220): exact, a signed comparison; wrapped, the sign of the difference
reduced to 32 bits. -/
def DifferenceNegative (s : State) (rs1 rs2 : XReg) : Prop :=
  match s.params.branchCmp with
  | .exact => (s.readX rs1).toInt < (s.readX rs2).toInt
  | .wrapped => ((s.readX rs1).toInt - (s.readX rs2).toInt).bmod (2 ^ 32) < 0

/-- A value in units of 2^-48 that some finite binary16 pattern has (R25, R253). -/
def Represents (h : Half) (v : Int) : Prop := Half.finite h = true ∧ Half.units h * 2 ^ 24 = v

/-- The premise of R253 for one element: every sum of a nonempty choice of the four products and C[i][j] is exactly
representable. A choice is given by which of the five terms it takes. -/
def ElementExact (A B C : Tile) (i j : Fin 4) : Prop :=
  ∀ (p : Fin 4 → Bool) (c : Bool), (∃ k, p k = true) ∨ c = true →
    ∃ h, Represents h
      ((∑ k, if p k then Half.units (A.elem i k) * Half.units (B.elem k j) else 0)
        + if c then Half.units (C.elem i j) * 2 ^ 24 else 0)

/-- Every element of a tile is finite. -/
def AllFinite (t : Tile) : Prop := ∀ r c, Half.finite (t.elem r c) = true

/-- The exactness property of R253 for a function of three tiles, at three operand tiles. -/
def ExactAt (f : Tile → Tile → Tile → Tile) (A B C : Tile) : Prop :=
  AllFinite A → AllFinite B → AllFinite C → (∀ i j, ElementExact A B C i j) →
    ∀ i j, Represents ((f A B C).elem i j)
      ((∑ k, Half.units (A.elem i k) * Half.units (B.elem k j)) + Half.units (C.elem i j) * 2 ^ 24)

/-- The sum of r[j] * 2^j over a bit sequence (R81). -/
def bitSum (r : List Bool) : Int := ∑ j ∈ Finset.range r.length, if r[j]? = some true then 2 ^ j else 0

/-- Executing a list of instructions one after the other, as long as each answers a next state. -/
def execAll : List Instr → State → Result
  | [], s => .next s
  | i :: rest, s =>
    match exec i s with
    | .next t => execAll rest t
    | .fault f => .fault f
    | .refused r => .refused r

end Sys2Proof.Spec

open Sys2Proof Sys2Proof.Machine Sys2Proof.Spec

/-! ## Scalar ALU -/

/-- R141 to R145: the words of add, sub, xor, or and and decode to them, and each completes with rd holding the sum or
difference modulo 2^32 or the bitwise result of the old operands, pc advanced and nothing else changed. -/
def Obligations.RegisterAddSubLogicResult : Prop :=
  ∀ (rd rs1 rs2 : XReg) (s : State), let a := s.readX rs1; let b := s.readX rs2
    Completes (regWord 0b0000000 rs2 rs1 0b000 rd 0x33) (.add rd rs1 rs2) s
      (retireX s rd (trunc32 (a.toInt + b.toInt))) ∧
    Completes (regWord 0b0100000 rs2 rs1 0b000 rd 0x33) (.sub rd rs1 rs2) s
      (retireX s rd (trunc32 (a.toInt - b.toInt))) ∧
    (∃ v, Completes (regWord 0b0000000 rs2 rs1 0b100 rd 0x33) (.xor rd rs1 rs2) s (retireX s rd v) ∧
      ∀ k, v.getLsbD k = (a.getLsbD k != b.getLsbD k)) ∧
    (∃ v, Completes (regWord 0b0000000 rs2 rs1 0b110 rd 0x33) (.or rd rs1 rs2) s (retireX s rd v) ∧
      ∀ k, v.getLsbD k = (a.getLsbD k || b.getLsbD k)) ∧
    (∃ v, Completes (regWord 0b0000000 rs2 rs1 0b111 rd 0x33) (.and rd rs1 rs2) s (retireX s rd v) ∧
      ∀ k, v.getLsbD k = (a.getLsbD k && b.getLsbD k))

/-- R146 to R148: the shifts use the low 5 bits of x[rs2]; sra rounds toward minus infinity, copying bit 31. -/
def Obligations.RegisterShiftResult : Prop :=
  ∀ (rd rs1 rs2 : XReg) (s : State), let a := s.readX rs1; let n := (s.readX rs2).toNat % 32
    Completes (regWord 0b0000000 rs2 rs1 0b001 rd 0x33) (.sll rd rs1 rs2) s
      (retireX s rd (trunc32 (a.toNat * 2 ^ n : Nat))) ∧
    Completes (regWord 0b0000000 rs2 rs1 0b101 rd 0x33) (.srl rd rs1 rs2) s
      (retireX s rd (BitVec.ofNat 32 (a.toNat / 2 ^ n))) ∧
    Completes (regWord 0b0100000 rs2 rs1 0b101 rd 0x33) (.sra rd rs1 rs2) s (retireX s rd (trunc32 (a.toInt / 2 ^ n)))

/-- R149, R150: slt compares signed, sltu unsigned. -/
def Obligations.RegisterCompareResult : Prop :=
  ∀ (rd rs1 rs2 : XReg) (s : State), let a := s.readX rs1; let b := s.readX rs2
    Completes (regWord 0b0000000 rs2 rs1 0b010 rd 0x33) (.slt rd rs1 rs2) s
      (retireX s rd (if a.toInt < b.toInt then 1 else 0)) ∧
    Completes (regWord 0b0000000 rs2 rs1 0b011 rd 0x33) (.sltu rd rs1 rs2) s
      (retireX s rd (if a.toNat < b.toNat then 1 else 0))

/-- R151, R152: mul gives the product modulo 2^32, mov copies; a mov word with a nonzero rs2 field has no meaning. -/
def Obligations.RegisterMulMovResult : Prop :=
  ∀ (rd rs1 rs2 : XReg) (s : State), let a := s.readX rs1; let b := s.readX rs2
    Completes (regWord 0b0000001 rs2 rs1 0b000 rd 0x33) (.mul rd rs1 rs2) s
      (retireX s rd (trunc32 (a.toInt * b.toInt))) ∧
    Completes (regWord 0b0000010 0 rs1 0b000 rd 0x33) (.mov rd rs1) s (retireX s rd a) ∧
    (rs2 ≠ 0 → ∃ r, decode (regWord 0b0000010 rs2 rs1 0b000 rd 0x33) = .error r)

/-- R161 to R164: the second operand is the 12-bit immediate sign-extended. -/
def Obligations.ImmediateAddLogicResult : Prop :=
  ∀ (rd rs1 : XReg) (imm : BitVec 12) (s : State), let a := s.readX rs1; let b := BitVec.ofInt 32 imm.toInt
    Completes (immWord imm.toNat rs1 0b000 rd 0x13) (.addi rd rs1 imm) s
      (retireX s rd (trunc32 (a.toInt + imm.toInt))) ∧
    (∃ v, Completes (immWord imm.toNat rs1 0b100 rd 0x13) (.xori rd rs1 imm) s (retireX s rd v) ∧
      ∀ k, v.getLsbD k = (a.getLsbD k != b.getLsbD k)) ∧
    (∃ v, Completes (immWord imm.toNat rs1 0b110 rd 0x13) (.ori rd rs1 imm) s (retireX s rd v) ∧
      ∀ k, v.getLsbD k = (a.getLsbD k || b.getLsbD k)) ∧
    (∃ v, Completes (immWord imm.toNat rs1 0b111 rd 0x13) (.andi rd rs1 imm) s (retireX s rd v) ∧
      ∀ k, v.getLsbD k = (a.getLsbD k && b.getLsbD k))

/-- R165 to R167: the shift amount is w[24:20], with w[31:25] = 0b0000000, or 0b0100000 for srai. -/
def Obligations.ImmediateShiftResult : Prop :=
  ∀ (rd rs1 : XReg) (shamt : BitVec 5) (s : State), let a := s.readX rs1; let n := shamt.toNat
    Completes (immWord n rs1 0b001 rd 0x13) (.slli rd rs1 shamt) s (retireX s rd (trunc32 (a.toNat * 2 ^ n : Nat))) ∧
    Completes (immWord n rs1 0b101 rd 0x13) (.srli rd rs1 shamt) s (retireX s rd (BitVec.ofNat 32 (a.toNat / 2 ^ n))) ∧
    Completes (immWord (0x400 + n) rs1 0b101 rd 0x13) (.srai rd rs1 shamt) s (retireX s rd (trunc32 (a.toInt / 2 ^ n)))

/-- R168, R169: sltui sign-extends its immediate and then compares unsigned. -/
def Obligations.ImmediateCompareResult : Prop :=
  ∀ (rd rs1 : XReg) (imm : BitVec 12) (s : State), let a := s.readX rs1
    Completes (immWord imm.toNat rs1 0b010 rd 0x13) (.slti rd rs1 imm) s
      (retireX s rd (if a.toInt < imm.toInt then 1 else 0)) ∧
    Completes (immWord imm.toNat rs1 0b011 rd 0x13) (.sltui rd rs1 imm) s
      (retireX s rd (if (a.toNat : Int) < imm.toInt % 2 ^ 32 then 1 else 0))

/-- R175: lui replaces rd by imm20 * 2^12. -/
def Obligations.UpperImmediateResult : Prop :=
  ∀ (rd : XReg) (imm20 : BitVec 20) (s : State),
    Completes (BitVec.ofNat 32 (imm20.toNat * 2 ^ 12 + rd.val * 2 ^ 7 + 0x37)) (.lui rd imm20) s
      (retireX s rd (BitVec.ofNat 32 (imm20.toNat * 2 ^ 12)))

/-! ## Loads and stores -/

/-- R200: lw, its two faults in their order, and its completion with the little-endian word in rd. -/
def Obligations.LoadWordResult : Prop :=
  ∀ (rd rs1 : XReg) (imm : BitVec 12) (s : State), let ea := address s rs1 imm
    decode (immWord imm.toNat rs1 0b010 rd 0x03) = .ok (.lw rd rs1 imm) ∧
    AccessEnds (.lw rd rs1 imm) s .load ea 4 (exec (.lw rd rs1 imm) s = .next (retireX s rd (wordAt s ea.toNat)))

/-- R201: sw, its two faults in their order, and its completion with the four bytes of x[rs2] stored, lowest first,
and every other byte unchanged. -/
def Obligations.StoreWordResult : Prop :=
  ∀ (rs2 rs1 : XReg) (imm : BitVec 12) (s : State), let ea := address s rs1 imm
    decode (storeWord imm rs2 rs1 0b010 0x23) = .ok (.sw rs2 rs1 imm) ∧
    AccessEnds (.sw rs2 rs1 imm) s .store ea 4
      (∃ t, exec (.sw rs2 rs1 imm) s = .next t ∧
        StoredBytes s t ea.toNat 4 fun k => BitVec.ofNat 8 ((s.readX rs2).toNat / 2 ^ (8 * k)))

/-- R56: a word of a stored tile is two of its elements, the one at the lower address in bits 15..0, and a tile's
elements are the halves of the words that lie there. -/
def Obligations.MixedWidthAccess : Prop :=
  ∀ (mem : Memory) (a : Nat) (t : Tile) (r : Fin 4) (v : Word),
    (mem.storeTile a t).loadWord (a + 8 * r.val) = t.elem r 1 ++ t.elem r 0 ∧
    (mem.storeTile a t).loadWord (a + 8 * r.val + 4) = t.elem r 3 ++ t.elem r 2 ∧
    ((mem.storeWord (a + 8 * r.val) v).loadTile a).elem r 1 ++ ((mem.storeWord (a + 8 * r.val) v).loadTile a).elem r 0
      = (v : BitVec (16 + 16)) ∧
    ((mem.storeWord (a + 8 * r.val + 4) v).loadTile a).elem r 3
        ++ ((mem.storeWord (a + 8 * r.val + 4) v).loadTile a).elem r 2 = (v : BitVec (16 + 16))

/-- A load gives what the last store to the same place stored, for words and for tiles. -/
def Obligations.LoadAfterStore : Prop :=
  ∀ (mem : Memory) (a : Nat) (v : Word) (t : Tile),
    (mem.storeWord a v).loadWord a = v ∧ (mem.storeTile a t).loadTile a = t

/-- Two memories in canonical form of one size that read alike at every address are equal. -/
def Obligations.CanonicalMemoryIsDeterminedByReads : Prop :=
  ∀ mem mem' : Memory, mem.wf → mem'.wf → mem.size = mem'.size → (∀ a, mem.readByte a = mem'.readByte a) → mem = mem'

/-- R63: what sw or st.m stored at an address is what a later fetch of that address reads. That a tile's addresses do
not wrap rests on the canonical form, which every step keeps (`StepKeepsInvariant`). -/
def Obligations.StoreIsSeenByFetch : Prop :=
  (∀ (rs2 rs1 : XReg) (imm : BitVec 12) (s t : State), s.status = .running → exec (.sw rs2 rs1 imm) s = .next t →
    t.status = .running → (t.setPc (address s rs1 imm)).fetch = .ok (s.readX rs2)) ∧
  (∀ (md : MReg) (rs1 : XReg) (imm : BitVec 11) (s t : State) (k : Fin 8), s.status = .running → s.mem.wf →
    exec (.stm md rs1 0 imm) s = .next t → t.status = .running →
    (t.setPc (address s rs1 imm + BitVec.ofNat 32 (4 * k.val))).fetch =
      .ok (((s.readM md).elem ⟨k.val / 2, by omega⟩ ⟨k.val % 2 * 2 + 1, by omega⟩
        ++ (s.readM md).elem ⟨k.val / 2, by omega⟩ ⟨k.val % 2 * 2, by omega⟩ : BitVec (16 + 16))))

/-! ## Control transfer -/

/-- R221 to R224, with R220's two values of BRANCH_CMP_MODE (the spec's decision D20): the four branches, none of
which faults. -/
def Obligations.ConditionalBranchResult : Prop :=
  ∀ (rs1 rs2 : XReg) (imm : BitVec 13) (s : State), evenOffset imm = true →
    BranchCompletes (branchWord imm rs2 rs1 0b000) (.beq rs1 rs2 imm) s imm (s.readX rs1 = s.readX rs2) ∧
    BranchCompletes (branchWord imm rs2 rs1 0b001) (.bne rs1 rs2 imm) s imm (s.readX rs1 ≠ s.readX rs2) ∧
    BranchCompletes (branchWord imm rs2 rs1 0b100) (.blt rs1 rs2 imm) s imm (DifferenceNegative s rs1 rs2) ∧
    BranchCompletes (branchWord imm rs2 rs1 0b101) (.bge rs1 rs2 imm) s imm (¬ DifferenceNegative s rs1 rs2)

/-- R225: jal links pc + 4 in rd and adds the byte offset to the pc of the jal itself. -/
def Obligations.JumpAndLinkResult : Prop :=
  ∀ (rd : XReg) (imm : BitVec 21) (s : State), evenOffset imm = true →
    Completes (jumpWord imm rd) (.jal rd imm) s
      { s with x := s.x.set rd (s.pc + 4), pc := s.pc + BitVec.ofInt 32 imm.toInt }

/-- R226: jalr links pc + 4 in rd; the target is x[rs1] + imm with bit 0 kept, where x[rs1] is the link itself when
rd = rs1 under link_first, and the old value otherwise (the spec's decision D22). -/
def Obligations.JumpRegisterResult : Prop :=
  ∀ (rd rs1 : XReg) (imm : BitVec 12) (s : State),
    Completes (immWord imm.toNat rs1 0b000 rd 0x67) (.jalr rd rs1 imm) s
      { s with
        x := s.x.set rd (s.pc + 4)
        pc := (if s.params.jalrOrder = .linkFirst ∧ rd = rs1 then s.pc + 4 else s.readX rs1)
          + BitVec.ofInt 32 imm.toInt }

/-- R21 (the spec's decision D2): x0 is an ordinary register: a write changes it, a read returns the last value
written, and jal x0 and jalr x0 write the link into it. An instruction that names x0 as a source reads what was
written. -/
def Obligations.ZeroRegisterIsOrdinary : Prop :=
  ∀ (s : State) (v : Word) (imm : BitVec 21) (rd rs1 : XReg) (imm12 : BitVec 12),
    (s.writeX 0 v).readX 0 = v ∧
    exec (.addi rd 0 imm12) (s.writeX 0 v) =
      .next (retireX (s.writeX 0 v) rd (v + BitVec.ofInt 32 imm12.toInt)) ∧
    (∃ t, exec (.jal 0 imm) s = .next t ∧ t.readX 0 = s.pc + 4) ∧
    (∃ t, exec (.jalr 0 rs1 imm12) s = .next t ∧ t.readX 0 = s.pc + 4)

/-! ## Matrix -/

/-- R254: gemm completes with GemmFn of the three old operand tiles in m[md]; a word with nonzero w[31:23] has no
meaning. -/
def Obligations.GemmResult : Prop :=
  ∀ (md ma mb mc : MReg) (s : State) (reserved : Nat),
    Completes (gemmWord 0 mc mb ma md) (.gemm md ma mb mc) s
      (retireM s md (gemmFn (s.readM ma) (s.readM mb) (s.readM mc))) ∧
    (0 < reserved → reserved < 2 ^ 9 → ∃ r, decode (gemmWord reserved mc mb ma md) = .error r)

/-- R253 (the spec's decision D19): the exactness property holds of GemmFn. -/
def Obligations.GemmExactness : Prop := ∀ A B C : Tile, ExactAt gemmFn A B C

/-- R250, R252: wherever a function has the exactness property, the model's GemmFn with that function as its free
value agrees with it, so the model assumes nothing more of GemmFn. -/
def Obligations.GemmFreeValueCoversEveryFunction : Prop :=
  ∀ (f : Tile → Tile → Tile → Tile) (A B C : Tile), ExactAt f A B C → Gemm.ofFree f A B C = f A B C

/-- R259: ld.m's refusal of a stride other than 0, its two faults in their order, and its completion with the 32 bytes
in m[md]. -/
def Obligations.LoadTileResult : Prop :=
  ∀ (md : MReg) (rs1 : XReg) (imm : BitVec 11) (s : State), let ea := address s rs1 imm
    (∀ stride, stride ≠ 0 →
      exec (.ldm md rs1 stride imm) s = .next { s with status := .refused .strideUnmodelled s.pc }) ∧
    decode (tileWord imm 0 rs1 md 0x2B) = .ok (.ldm md rs1 0 imm) ∧
    AccessEnds (.ldm md rs1 0 imm) s .tileLoad ea 32
      (exec (.ldm md rs1 0 imm) s = .next (retireM s md (tileAt s ea.toNat)))

/-- R260: st.m's refusal of a stride other than 0, its two faults in their order, and its completion with the 16
elements stored row-major, low byte first, and every other byte unchanged. -/
def Obligations.StoreTileResult : Prop :=
  ∀ (md : MReg) (rs1 : XReg) (imm : BitVec 11) (s : State), let ea := address s rs1 imm
    (∀ stride, stride ≠ 0 →
      exec (.stm md rs1 stride imm) s = .next { s with status := .refused .strideUnmodelled s.pc }) ∧
    decode (tileWord imm 0 rs1 md 0x5B) = .ok (.stm md rs1 0 imm) ∧
    AccessEnds (.stm md rs1 0 imm) s .tileStore ea 32
      (∃ t, exec (.stm md rs1 0 imm) s = .next t ∧
        StoredBytes s t ea.toNat 32 fun k =>
          BitVec.ofNat 8 (((s.readM md).elem (Fin.ofNat 4 (k / 8)) (Fin.ofNat 4 (k / 2 % 4))).toNat / 2 ^ (8 * (k % 2))))

/-- R262 (the spec's decision D17): every word of ld.m and st.m with a nonzero stride decodes, and executing it
changes nothing but status, to Refused(StrideUnmodelled) with the pc, whatever its address. -/
def Obligations.StridedTileAccessIsRefused : Prop :=
  ∀ (md : MReg) (rs1 : XReg) (stride : BitVec 5) (imm : BitVec 11) (s : State), stride ≠ 0 →
    Completes (tileWord imm stride rs1 md 0x2B) (.ldm md rs1 stride imm) s
      { s with status := .refused .strideUnmodelled s.pc } ∧
    Completes (tileWord imm stride rs1 md 0x5B) (.stm md rs1 stride imm) s
      { s with status := .refused .strideUnmodelled s.pc }

/-! ## Halt -/

/-- R280: 0xFFFFFFFF is halt, which changes nothing but status; any other word of opcode 0b1111111 has no meaning; and
after it a step changes nothing (the spec's decisions D14, D27 and D32). -/
def Obligations.HaltResult : Prop :=
  (∀ s, Completes 0xFFFFFFFF .halt s { s with status := .halted }) ∧
  (∀ w : Word, w.toNat % 128 = 0x7F → w ≠ 0xFFFFFFFF → ∃ r, decode w = .error r) ∧
  ∀ s t, exec .halt s = .next t → step t = .next t

/-! ## Decoding and encoding -/

/-- Decoding the word of a well-formed instruction gives the instruction back, with every operand. -/
def Obligations.DecodeOfEncode : Prop := ∀ i : Instr, i.wellFormed = true → decode (encode i) = .ok i

/-- A word that decodes is the word of the instruction it decodes to, which is well-formed: no bit is dropped and no
two words mean the same. -/
def Obligations.EncodeOfDecode : Prop :=
  ∀ (w : Word) (i : Instr), decode w = .ok i → encode i = w ∧ i.wellFormed = true

/-- A word decodes exactly when a row of the opcode table matches it, to an instruction of that row's mnemonic; no
word matches two rows. -/
def Obligations.DecodeFollowsOpcodeTable : Prop :=
  (∀ (w : Word) (row : OpcodeRow), row ∈ opcodeTable → row.matchesWord w = true →
    ∃ i, decode w = .ok i ∧ i.mnemonic = row.mnemonic) ∧
  (∀ (w : Word) (i : Instr), decode w = .ok i →
    ∃ row ∈ opcodeTable, row.matchesWord w = true ∧ row.mnemonic = i.mnemonic) ∧
  ∀ (w : Word) (row row' : OpcodeRow), row ∈ opcodeTable → row' ∈ opcodeTable → row.matchesWord w = true →
    row'.matchesWord w = true → row = row'

/-- Words written out in spec/95_test_vectors.md decode to the instructions they stand for there. -/
def Obligations.WrittenWordsDecode : Prop :=
  decode 0x002081B3 = .ok (.add 3 1 2) ∧ decode 0xFFF00093 = .ok (.addi 1 0 (-1)) ∧
  decode 0x41FFDF93 = .ok (.srai 31 31 31) ∧ decode 0x800000B7 = .ok (.lui 1 0x80000) ∧
  decode 0x80112023 = .ok (.sw 1 2 (-2048)) ∧ decode 0x7E208FE3 = .ok (.beq 1 2 4094) ∧
  decode 0x7FFFF0EF = .ok (.jal 1 1048574) ∧ decode 0x800080E7 = .ok (.jalr 1 1 (-2048)) ∧
  decode 0x0066F78B = .ok (.gemm 15 14 13 12) ∧ decode 0x8000F92B = .ok (.ldm 2 31 0 (-1024)) ∧
  decode 0x7FE0085B = .ok (.stm 0 1 0 1023) ∧ decode 0xFFFFFFFF = .ok .halt

/-! ## The bitfield codec -/

/-- R80: r[j] is bit (j mod 8) of B[n-1-floor(j/8)], for each of the 8n bits. -/
def Obligations.CodecBitOrder : Prop :=
  ∀ bytes : List Byte, (bitsOf bytes).length = 8 * bytes.length ∧
    ∀ (j : Nat) (h : j < 8 * bytes.length),
      (bitsOf bytes)[j]? = some ((bytes[bytes.length - 1 - j / 8]'(by omega)).getLsbD (j % 8))

/-- R81: the unsigned value is the sum of r[j] * 2^j, and the signed value is that less r[L-1] * 2^L. -/
def Obligations.CodecValue : Prop :=
  ∀ r : List Bool, valueOf r false = bitSum r ∧
    ∀ (h : 0 < r.length), valueOf r true = bitSum r - if r[r.length - 1] then 2 ^ r.length else 0

/-- R82: the instruction word is what the codec gives for the word's bytes most-significant first. -/
def Obligations.CodecReadsInstructionWord : Prop :=
  ∀ (mem : Memory) (a : Nat),
    let bytes := [mem.readByte (a + 3), mem.readByte (a + 2), mem.readByte (a + 1), mem.readByte a]
    ((mem.loadWord a).toNat : Int) = valueOf (bitsOf bytes) false ∧
    (mem.loadWord a).toInt = valueOf (bitsOf bytes) true

/-! ## The step -/

/-- R301: a misaligned pc faults before anything else, and changes nothing but status. -/
def Obligations.FetchAlignmentFault : Prop :=
  ∀ s : State, s.status = .running → s.pc.toNat % 4 ≠ 0 →
    step s = .next (faulted s (.alignmentFault s.pc .fetch s.pc))

/-- R302 (the spec's decision D6): an aligned pc whose word is not inside memory faults. -/
def Obligations.FetchBoundsFault : Prop :=
  ∀ s : State, s.status = .running → s.pc.toNat % 4 = 0 → s.mem.size < s.pc.toNat + 4 →
    step s = .next (faulted s (.boundsFault s.pc .fetch s.pc 4))

/-- R303: a fetched word without a meaning faults, with the pc and the word recorded; the all-zero word is one. -/
def Obligations.DecodeFault : Prop :=
  (∀ (s : State) (r : DecodeReject), s.status = .running → s.accessible s.pc 4 →
    decode (wordAt s s.pc.toNat) = .error r →
    step s = .next (faulted s (.decodeError s.pc (wordAt s s.pc.toNat)))) ∧
  ∃ r, decode 0 = .error r

/-- R311: the step of a Running Core whose pc is fetchable is the execution of the instruction its word decodes
to. -/
def Obligations.StepRunsDecodedInstruction : Prop :=
  ∀ (s : State) (i : Instr), s.status = .running → s.accessible s.pc 4 →
    decode (wordAt s s.pc.toNat) = .ok i → step s = exec i s

/-- R304: a data access at a misaligned address faults, and changes nothing but status. -/
def Obligations.DataAlignmentFault : Prop :=
  ∀ (i : Instr) (s : State) (acc : DataAccess), dataAccess i s = some acc → i.strided = false →
    acc.addr.toNat % 4 ≠ 0 → exec i s = .next (faulted s (.alignmentFault s.pc acc.kind acc.addr))

/-- R305 (the spec's decision D6): an aligned data access whose bytes are not all inside memory faults. -/
def Obligations.DataBoundsFault : Prop :=
  ∀ (i : Instr) (s : State) (acc : DataAccess), dataAccess i s = some acc → i.strided = false →
    acc.addr.toNat % 4 = 0 → s.mem.size < acc.addr.toNat + acc.size →
    exec i s = .next (faulted s (.boundsFault s.pc acc.kind acc.addr acc.size))

/-- R308 (the spec's decision D23): a faulting step changes no register, no byte of memory and not the pc, only
status; what it records of the fault is true of the state; and the Core never executes again. -/
def Obligations.FaultsArePrecise : Prop :=
  ∀ (s t : State) (f : Fault), s.status = .running → step s = .next t → t.status = .faulted f →
    t = { s with status := .faulted f } ∧ t.explainsFault f ∧ ∀ k, Sys2Proof.core.run k t = .next t

/-- R307 (the spec's decision D36): no step raises RegisterIndexFault. -/
def Obligations.RegisterIndexFaultIsNeverRaised : Prop :=
  ∀ (s t : State) (pc : Word) (index : Nat), s.status = .running → step s = .next t →
    t.status ≠ .faulted (.registerIndexFault pc index)

/-- R309 (the spec's decision D24): the checks of a step in their order, the first that applies winning, and the
instruction's effect after all of them: a status that is neither Faulted nor Refused. -/
def Obligations.ChecksComeInOrder : Prop :=
  ∀ s : State,
    (s.status ≠ .running → step s = .next s) ∧
    (s.status = .running → s.pc.toNat % 4 ≠ 0 → step s = .next (faulted s (.alignmentFault s.pc .fetch s.pc))) ∧
    (s.status = .running → s.pc.toNat % 4 = 0 → s.mem.size < s.pc.toNat + 4 →
      step s = .next (faulted s (.boundsFault s.pc .fetch s.pc 4))) ∧
    (s.status = .running → s.accessible s.pc 4 → ∀ r, decode (wordAt s s.pc.toNat) = .error r →
      step s = .next (faulted s (.decodeError s.pc (wordAt s s.pc.toNat)))) ∧
    (s.status = .running → s.accessible s.pc 4 → ∀ i, decode (wordAt s s.pc.toNat) = .ok i →
      (i.strided = true → step s = .next { s with status := .refused .strideUnmodelled s.pc }) ∧
      (i.strided = false →
        (∀ acc, dataAccess i s = some acc → acc.addr.toNat % 4 ≠ 0 →
          step s = .next (faulted s (.alignmentFault s.pc acc.kind acc.addr))) ∧
        (∀ acc, dataAccess i s = some acc → acc.addr.toNat % 4 = 0 → s.mem.size < acc.addr.toNat + acc.size →
          step s = .next (faulted s (.boundsFault s.pc acc.kind acc.addr acc.size))) ∧
        ((∀ acc, dataAccess i s = some acc → s.accessible acc.addr acc.size) →
          ∃ t, step s = .next t ∧ exec i s = .next t ∧ (t.status = .running ∨ t.status = .halted))))

/-- R313 (the spec's decision D27): the step of a Halted, Faulted or Refused Core executes nothing and changes nothing,
its status included, which is what the step returns. -/
def Obligations.StoppedCoreStep : Prop := ∀ s : State, s.status ≠ .running → step s = .next s

/-- A Running Core's step always answers a next state: no instruction is left without a meaning, and a fault is a
state. -/
def Obligations.RunningStepAnswersNext : Prop := ∀ s : State, s.status = .running → ∃ t, step s = .next t

/-- R30, R300, R306: an instruction ends with status Halted exactly when it is halt, Refused exactly when it is a
strided tile access, and Faulted exactly when its data access is not accessible; else it stays Running. -/
def Obligations.StatusAfterExecution : Prop :=
  ∀ (i : Instr) (s t : State), s.status = .running → exec i s = .next t →
    (t.status = .halted ↔ i = .halt) ∧
    ((∃ reason pc, t.status = .refused reason pc) ↔ i.strided = true) ∧
    ((∃ f, t.status = .faulted f) ↔
      i.strided = false ∧ ∃ acc, dataAccess i s = some acc ∧ ¬ s.accessible acc.addr acc.size)

/-- The invariant: memory stays in canonical form, and the status stays explained by the state it stands in, so that a
Halted Core's pc is at a halt word and a Faulted Core's record is of the instruction at its pc. -/
def Obligations.StepKeepsInvariant : Prop := ∀ s t : State, s.Inv → step s = .next t → t.Inv

/-- The reset state meets the invariant. -/
def Obligations.ResetMeetsInvariant : Prop := State.reset.Inv

/-! ## Frames -/

/-- R23: the only scalar register an instruction writes is its destination. -/
def Obligations.ScalarRegisterFrame : Prop :=
  ∀ (i : Instr) (s t : State) (r : XReg), exec i s = .next t → i.xDest ≠ some r → t.readX r = s.readX r

/-- R26: the only matrix register an instruction writes is the destination of gemm or ld.m. -/
def Obligations.MatrixRegisterFrame : Prop :=
  ∀ (i : Instr) (s t : State) (q : MReg), exec i s = .next t → i.mDest ≠ some q → t.readM q = s.readM q

/-- R51: the only bytes of memory an instruction changes are those sw or st.m stores to, at the address its meaning
computes. -/
def Obligations.MemoryFrame : Prop :=
  ∀ (i : Instr) (s t : State) (a : Nat), exec i s = .next t → ¬ storesTo i s a → t.readByte a = s.readByte a

/-- R29, R33: no step changes the ControlRegister, MEM_SIZE or the parameters. -/
def Obligations.ConstructionArgumentsNeverChange : Prop :=
  ∀ s t : State, step s = .next t → t.ctrl = s.ctrl ∧ t.mem.size = s.mem.size ∧ t.params = s.params

/-- R27: pc advances by 4, but for branches, jumps and halt. -/
def Obligations.SequentialPc : Prop :=
  ∀ (i : Instr) (s t : State), exec i s = .next t → s.status = .running → t.status = .running →
    i.transfersControl = false → t.pc = s.pc + 4

/-! ## Construction -/

/-- R34 (the spec's decisions D5, D25 and D35): every piece of state after construction. Three clauses are the model's
choice and no part of R34: that the bytes above the image are those `Cells.lookup` finds in the draw, a list of cells
with 0x00 where it lists none, and that the invariant holds, with its canonical form of memory (both
notes/assumptions/2.md); and that the parameters are carried in the state (notes/assumptions/6.md). -/
def Obligations.ConstructionValues : Prop :=
  ∀ (image : List Byte) (ctrl : ControlRegister) (memSize : Nat) (draw : List Host.Cell) (params : Params) (s : State),
    coreNew image ctrl memSize draw params = some s →
    s.pc = ctrl.startAddress ∧ s.readX 2 = ctrl.stackPointer ∧ (∀ r, r ≠ 2 → s.readX r = 0) ∧
    (∀ q r c, (s.readM q).elem r c = 0) ∧ (∀ (a : Nat) (h : a < image.length), s.readByte a = image[a]) ∧
    (∀ a, image.length ≤ a → a < memSize → s.readByte a = Cells.lookup draw a) ∧
    s.mem.size = memSize ∧ s.ctrl = ctrl ∧ s.status = .running ∧ s.params = params ∧ s.Inv

/-- R330, step 1: construction fails exactly when the image is longer than memory or memory larger than 2^31. -/
def Obligations.ConstructionFails : Prop :=
  ∀ (image : List Byte) (ctrl : ControlRegister) (memSize : Nat) (draw : List Host.Cell) (params : Params),
    coreNew image ctrl memSize draw params = none ↔ ¬ (image.length ≤ memSize ∧ memSize ≤ 2 ^ 31)

/-- R34, decision D5: the bytes above the image can be any bytes. -/
def Obligations.ConstructionDrawsAnyBytes : Prop :=
  ∀ (image : List Byte) (ctrl : ControlRegister) (memSize : Nat) (params : Params) (byte : Nat → Byte),
    image.length ≤ memSize → memSize ≤ 2 ^ 31 →
    ∃ draw s, coreNew image ctrl memSize draw params = some s ∧
      ∀ a, image.length ≤ a → a < memSize → s.readByte a = byte a

/-- The model's reset state is a construction, from the arguments of notes/assumptions/1.md and 2.md. -/
def Obligations.ResetIsAConstruction : Prop :=
  coreNew [] { startAddress := 0, stackPointer := 0 } (2 ^ 31) [] { branchCmp := .exact, jalrOrder := .linkFirst }
    = some State.reset

/-! ## Running -/

/-- R336 (with R312's decision D26): `run` steps a Running Core until it stops or the bound is reached, and its
outcome is the status it ends with. -/
def Obligations.RunStopsAtStatusOrBound : Prop :=
  ∀ (n : Nat) (s : State), let k := iterations n s; let t := (run n s).2
    k ≤ n ∧ Sys2Proof.core.run k s = .next t ∧
    (∀ j u, j < k → Sys2Proof.core.run j s = .next u → u.status = .running) ∧
    (t.status = .running → k = n) ∧ (run n s).1 = outcomeOf t.status

/-- R312, decision D37: after IterationLimitReached a later call continues from the state the first left. -/
def Obligations.RunResumes : Prop :=
  ∀ (n m : Nat) (s : State), (run n s).1 = .iterationLimitReached → run (n + m) s = run m (run n s).2

/-! ## Pseudo-instructions -/

/-- R114: the two-instruction form of li leaves x[rd] = trunc32(imm) for every imm in range, and the one-instruction
form x[0] + imm; nothing else but pc changes. -/
def Obligations.LoadImmediateExpansion : Prop :=
  (∀ (rd : XReg) (imm : Int) (s : State), -2 ^ 31 ≤ imm → imm < 2 ^ 32 →
    execAll (Pseudo.liLong rd imm) s = .next { s with x := s.x.set rd (trunc32 imm), pc := s.pc + 8 }) ∧
  ∀ (rd : XReg) (imm : Int) (s : State), -2048 ≤ imm → imm ≤ 2047 →
    execAll (Pseudo.li rd imm) s = .next (retireX s rd (trunc32 ((s.readX 0).toInt + imm)))

/-- R115: a push stores x[rd] below the stack pointer, and the pop of the same register after it gives back every
register. -/
def Obligations.PushThenPopRestores : Prop :=
  ∀ (rd : XReg) (s : State), rd ≠ 2 → s.accessible (s.readX 2 - 4) 4 →
    ∃ t u, execAll (Pseudo.push rd) s = .next t ∧ t.readX 2 = s.readX 2 - 4 ∧
      wordAt t (s.readX 2 - 4).toNat = s.readX rd ∧
      execAll (Pseudo.pop rd) t = .next u ∧ ∀ r, u.readX r = s.readX r
end

