-- ==== Sys2Proof/Laws/Decode.lean ====
section
/-! SUPPORT. Fields and formats as arithmetic on the word's number, which turns every question about an encoding into
linear arithmetic. -/

namespace Sys2Proof

/-- The number of a concatenation (R8). -/
theorem append_toNat {n m : Nat} (x : BitVec n) (y : BitVec m) :
    (x ++ y).toNat = x.toNat * 2 ^ m + y.toNat := by
  rw [BitVec.toNat_append, Nat.shiftLeft_eq, Nat.mul_comm]
  exact (Nat.two_pow_add_eq_or_of_lt y.isLt _).symm

/-- The number of a field v[lo+len-1:lo] (R7). -/
theorem extract_toNat {n : Nat} (v : BitVec n) (lo len : Nat) :
    (v.extractLsb' lo len).toNat = v.toNat / 2 ^ lo % 2 ^ len := by
  rw [BitVec.extractLsb'_toNat, Nat.shiftRight_eq_div_pow]

namespace Field

variable (w : Word)

theorem opcode_toNat : (opcode w).toNat = w.toNat % 2 ^ 7 := by simp [opcode]
theorem rd_val : (rd w).val = w.toNat / 2 ^ 7 % 2 ^ 5 := extract_toNat w 7 5
theorem funct3_toNat : (funct3 w).toNat = w.toNat / 2 ^ 12 % 2 ^ 3 := extract_toNat w 12 3
theorem rs1_val : (rs1 w).val = w.toNat / 2 ^ 15 % 2 ^ 5 := extract_toNat w 15 5
theorem rs2_val : (rs2 w).val = w.toNat / 2 ^ 20 % 2 ^ 5 := extract_toNat w 20 5
theorem funct7_toNat : (funct7 w).toNat = w.toNat / 2 ^ 25 % 2 ^ 7 := extract_toNat w 25 7
theorem shamt_toNat : (shamt w).toNat = w.toNat / 2 ^ 20 % 2 ^ 5 := extract_toNat w 20 5
theorem immI_toNat : (immI w).toNat = w.toNat / 2 ^ 20 % 2 ^ 12 := extract_toNat w 20 12
theorem immU_toNat : (immU w).toNat = w.toNat / 2 ^ 12 % 2 ^ 20 := extract_toNat w 12 20

theorem immS_toNat : (immS w).toNat = w.toNat / 2 ^ 25 % 2 ^ 7 * 2 ^ 5 + w.toNat / 2 ^ 7 % 2 ^ 5 := by
  unfold immS
  show BitVec.toNat (w := 7 + 5) _ = _
  rw [append_toNat, extract_toNat, extract_toNat]

theorem immB_toNat : (immB w).toNat = w.toNat / 2 ^ 31 % 2 * 2 ^ 12 + w.toNat / 2 ^ 7 % 2 * 2 ^ 11
    + w.toNat / 2 ^ 25 % 2 ^ 6 * 2 ^ 5 + w.toNat / 2 ^ 8 % 2 ^ 4 * 2 := by
  unfold immB
  show BitVec.toNat (w := 1 + 1 + 6 + 4 + 1) _ = _
  simp only [append_toNat, extract_toNat, BitVec.toNat_ofNat]
  omega

theorem immJ_toNat : (immJ w).toNat = w.toNat / 2 ^ 31 % 2 * 2 ^ 20 + w.toNat / 2 ^ 12 % 2 ^ 8 * 2 ^ 12
    + w.toNat / 2 ^ 20 % 2 * 2 ^ 11 + w.toNat / 2 ^ 21 % 2 ^ 10 * 2 := by
  unfold immJ
  show BitVec.toNat (w := 1 + 8 + 1 + 10 + 1) _ = _
  simp only [append_toNat, extract_toNat, BitVec.toNat_ofNat]
  omega

theorem gemmRd_val : (gemmRd w).val = w.toNat / 2 ^ 7 % 2 ^ 4 := extract_toNat w 7 4
theorem gemmRa_val : (gemmRa w).val = w.toNat / 2 ^ 11 % 2 ^ 4 := extract_toNat w 11 4
theorem gemmRb_val : (gemmRb w).val = w.toNat / 2 ^ 15 % 2 ^ 4 := extract_toNat w 15 4
theorem gemmRc_val : (gemmRc w).val = w.toNat / 2 ^ 19 % 2 ^ 4 := extract_toNat w 19 4
theorem gemmReserved_toNat : (gemmReserved w).toNat = w.toNat / 2 ^ 23 % 2 ^ 9 := extract_toNat w 23 9

theorem tileRd_val : (tileRd w).val = w.toNat / 2 ^ 7 % 2 ^ 4 := extract_toNat w 7 4
theorem tileRs1_val : (tileRs1 w).val = w.toNat / 2 ^ 11 % 2 ^ 5 := extract_toNat w 11 5
theorem tileStride_toNat : (tileStride w).toNat = w.toNat / 2 ^ 16 % 2 ^ 5 := extract_toNat w 16 5
theorem immM_toNat : (immM w).toNat = w.toNat / 2 ^ 21 % 2 ^ 11 := extract_toNat w 21 11

end Field

namespace Format

variable (f7 opc : BitVec 7) (f3 : BitVec 3) (rd' rs1 rs2 : XReg)

@[simp] theorem xreg_toNat (r : XReg) : (xreg r).toNat = r.val := rfl
@[simp] theorem mreg_toNat (r : MReg) : (mreg r).toNat = r.val := rfl

theorem r_toNat : (r f7 rs2 rs1 f3 rd' opc).toNat = f7.toNat * 2 ^ 25 + rs2.val * 2 ^ 20 + rs1.val * 2 ^ 15
    + f3.toNat * 2 ^ 12 + rd'.val * 2 ^ 7 + opc.toNat := by
  unfold r
  show BitVec.toNat (w := 7 + 5 + 5 + 3 + 5 + 7) _ = _
  simp only [append_toNat, xreg_toNat]
  omega

theorem i_toNat (imm : BitVec 12) : (i imm rs1 f3 rd' opc).toNat = imm.toNat * 2 ^ 20 + rs1.val * 2 ^ 15
    + f3.toNat * 2 ^ 12 + rd'.val * 2 ^ 7 + opc.toNat := by
  unfold i
  show BitVec.toNat (w := 12 + 5 + 3 + 5 + 7) _ = _
  simp only [append_toNat, xreg_toNat]
  omega

/-- The shift forms' word, with its immediate field in two parts (R101). -/
theorem shift_toNat (shamt : BitVec 5) : (i (f7 ++ shamt) rs1 f3 rd' opc).toNat =
    (f7.toNat * 2 ^ 5 + shamt.toNat) * 2 ^ 20 + rs1.val * 2 ^ 15 + f3.toNat * 2 ^ 12 + rd'.val * 2 ^ 7 + opc.toNat := by
  rw [i_toNat]
  exact congrArg (fun k => k * 2 ^ 20 + rs1.val * 2 ^ 15 + f3.toNat * 2 ^ 12 + rd'.val * 2 ^ 7 + opc.toNat)
    (append_toNat f7 shamt)

theorem s_toNat (imm : BitVec 12) : (s imm rs2 rs1 f3 opc).toNat = imm.toNat / 2 ^ 5 * 2 ^ 25 + rs2.val * 2 ^ 20
    + rs1.val * 2 ^ 15 + f3.toNat * 2 ^ 12 + imm.toNat % 2 ^ 5 * 2 ^ 7 + opc.toNat := by
  unfold s
  have := imm.isLt
  show BitVec.toNat (w := 7 + 5 + 5 + 3 + 5 + 7) _ = _
  simp only [append_toNat, xreg_toNat, extract_toNat]
  omega

theorem b_toNat (imm : BitVec 13) : (b imm rs2 rs1 f3 opc).toNat = imm.toNat / 2 ^ 12 * 2 ^ 31
    + imm.toNat / 2 ^ 5 % 2 ^ 6 * 2 ^ 25 + rs2.val * 2 ^ 20 + rs1.val * 2 ^ 15 + f3.toNat * 2 ^ 12
    + imm.toNat / 2 % 2 ^ 4 * 2 ^ 8 + imm.toNat / 2 ^ 11 % 2 * 2 ^ 7 + opc.toNat := by
  unfold b
  have := imm.isLt
  show BitVec.toNat (w := 1 + 6 + 5 + 5 + 3 + 4 + 1 + 7) _ = _
  simp only [append_toNat, xreg_toNat, extract_toNat]
  omega

theorem u_toNat (imm : BitVec 20) : (u imm rd' opc).toNat = imm.toNat * 2 ^ 12 + rd'.val * 2 ^ 7 + opc.toNat := by
  unfold u
  show BitVec.toNat (w := 20 + 5 + 7) _ = _
  simp only [append_toNat, xreg_toNat]
  omega

theorem j_toNat (imm : BitVec 21) : (j imm rd' opc).toNat = imm.toNat / 2 ^ 20 * 2 ^ 31
    + imm.toNat / 2 % 2 ^ 10 * 2 ^ 21 + imm.toNat / 2 ^ 11 % 2 * 2 ^ 20 + imm.toNat / 2 ^ 12 % 2 ^ 8 * 2 ^ 12
    + rd'.val * 2 ^ 7 + opc.toNat := by
  unfold j
  have := imm.isLt
  show BitVec.toNat (w := 1 + 10 + 1 + 8 + 5 + 7) _ = _
  simp only [append_toNat, xreg_toNat, extract_toNat]
  omega

theorem matrixAlu_toNat (rc rb ra rd : MReg) : (matrixAlu rc rb ra rd opc).toNat = rc.val * 2 ^ 19 + rb.val * 2 ^ 15
    + ra.val * 2 ^ 11 + rd.val * 2 ^ 7 + opc.toNat := by
  unfold matrixAlu
  show BitVec.toNat (w := 9 + 4 + 4 + 4 + 4 + 7) _ = _
  simp only [append_toNat, mreg_toNat, BitVec.toNat_ofNat]
  omega

theorem matrixMem_toNat (imm : BitVec 11) (stride : BitVec 5) (rd : MReg) :
    (matrixMem imm stride rs1 rd opc).toNat = imm.toNat * 2 ^ 21 + stride.toNat * 2 ^ 16 + rs1.val * 2 ^ 11
      + rd.val * 2 ^ 7 + opc.toNat := by
  unfold matrixMem
  show BitVec.toNat (w := 11 + 5 + 5 + 4 + 7) _ = _
  simp only [append_toNat, xreg_toNat, mreg_toNat]
  omega

end Format

/-- An even offset has an even number (R97, R99). -/
theorem evenOffset_toNat {n : Nat} (imm : BitVec n) : evenOffset imm = true ↔ imm.toNat % 2 = 0 := by
  rw [evenOffset, BitVec.getLsbD, Nat.testBit_zero]
  simp

/-- The parts the B format splits an offset into (R97). -/
theorem branchOffset_parts (imm : BitVec 13) (he : evenOffset imm = true) :
    imm.toNat = imm.toNat / 2 ^ 12 * 2 ^ 12 + imm.toNat / 2 ^ 11 % 2 * 2 ^ 11
      + imm.toNat / 2 ^ 5 % 2 ^ 6 * 2 ^ 5 + imm.toNat / 2 % 2 ^ 4 * 2 := by
  have := (evenOffset_toNat imm).mp he
  have e1 : imm.toNat / 2 / 2 ^ 4 = imm.toNat / 2 ^ 5 := Nat.div_div_eq_div_mul _ _ _
  have e2 : imm.toNat / 2 ^ 5 / 2 ^ 6 = imm.toNat / 2 ^ 11 := Nat.div_div_eq_div_mul _ _ _
  have e3 : imm.toNat / 2 ^ 11 / 2 = imm.toNat / 2 ^ 12 := Nat.div_div_eq_div_mul _ _ _
  omega

/-- The parts the J format splits an offset into (R99). -/
theorem jumpOffset_parts (imm : BitVec 21) (he : evenOffset imm = true) :
    imm.toNat = imm.toNat / 2 ^ 20 * 2 ^ 20 + imm.toNat / 2 ^ 12 % 2 ^ 8 * 2 ^ 12
      + imm.toNat / 2 ^ 11 % 2 * 2 ^ 11 + imm.toNat / 2 % 2 ^ 10 * 2 := by
  have := (evenOffset_toNat imm).mp he
  have e1 : imm.toNat / 2 / 2 ^ 10 = imm.toNat / 2 ^ 11 := Nat.div_div_eq_div_mul _ _ _
  have e2 : imm.toNat / 2 ^ 11 / 2 = imm.toNat / 2 ^ 12 := Nat.div_div_eq_div_mul _ _ _
  have e3 : imm.toNat / 2 ^ 12 / 2 ^ 8 = imm.toNat / 2 ^ 20 := Nat.div_div_eq_div_mul _ _ _
  omega

/-! ## Decoding a word whose number is known -/

theorem eq_of_number {n : Nat} (v : BitVec n) (k : Nat) (hk : k < 2 ^ n) : v = BitVec.ofNat n k ↔ v.toNat = k := by
  rw [BitVec.toNat_eq, BitVec.toNat_ofNat, Nat.mod_eq_of_lt hk]

/-- A field read off a number that is written out around it. -/
theorem field_of_sum {k high f low : Nat} (p m : Nat) (h : k = (high * m + f) * p + low) (hf : f < m)
    (hl : low < p) : k / p % m = f := by
  rw [h, Nat.mul_comm _ p, Nat.mul_add_div (by omega), Nat.div_eq_of_lt hl, Nat.add_zero, Nat.add_comm,
    Nat.add_mul_mod_self_right, Nat.mod_eq_of_lt hf]

/-- A word whose opcode is not that of the sentinel is not the sentinel (R94, R102). -/
theorem ne_sentinel {w : Word} {c : BitVec 7} (h : Field.opcode w = c) (hc : c ≠ 0x7F#7) : w ≠ 0xFFFFFFFF#32 := by
  rintro rfl
  exact hc (h.symm.trans (by decide))

section dispatch

variable {w : Word}

theorem decode_reg (h : Field.opcode w = 0x33#7) : decode w = decodeReg w := by
  simp [decode, ne_sentinel h (by decide), h]

theorem decode_imm (h : Field.opcode w = 0x13#7) : decode w = decodeImm w := by
  simp [decode, ne_sentinel h (by decide), h]

theorem decode_load (h : Field.opcode w = 0x03#7) : decode w =
    if Field.funct3 w = 0b010#3 then .ok (.lw (Field.rd w) (Field.rs1 w) (Field.immI w)) else .error .loadFunct3 := by
  simp [decode, ne_sentinel h (by decide), h]

theorem decode_store (h : Field.opcode w = 0x23#7) : decode w =
    if Field.funct3 w = 0b010#3 then .ok (.sw (Field.rs2 w) (Field.rs1 w) (Field.immS w)) else .error .storeFunct3 := by
  simp [decode, ne_sentinel h (by decide), h]

theorem decode_branch (h : Field.opcode w = 0x63#7) : decode w = decodeBranch w := by
  simp [decode, ne_sentinel h (by decide), h]

theorem decode_lui (h : Field.opcode w = 0x37#7) : decode w = .ok (.lui (Field.rd w) (Field.immU w)) := by
  simp [decode, ne_sentinel h (by decide), h]

theorem decode_jal (h : Field.opcode w = 0x6F#7) : decode w = .ok (.jal (Field.rd w) (Field.immJ w)) := by
  simp [decode, ne_sentinel h (by decide), h]

theorem decode_jalr (h : Field.opcode w = 0x67#7) : decode w =
    if Field.funct3 w = 0b000#3 then .ok (.jalr (Field.rd w) (Field.rs1 w) (Field.immI w))
    else .error .jalrFunct3 := by
  simp [decode, ne_sentinel h (by decide), h]

theorem decode_gemm (h : Field.opcode w = 0x0B#7) : decode w =
    if Field.gemmReserved w = 0#9 then
      .ok (.gemm (Field.gemmRd w) (Field.gemmRa w) (Field.gemmRb w) (Field.gemmRc w))
    else .error .gemmReserved := by
  simp [decode, ne_sentinel h (by decide), h, opcGemm]

theorem decode_ldm (h : Field.opcode w = 0x2B#7) :
    decode w = .ok (.ldm (Field.tileRd w) (Field.tileRs1 w) (Field.tileStride w) (Field.immM w)) := by
  simp [decode, ne_sentinel h (by decide), h, opcGemm, opcLdm]

theorem decode_stm (h : Field.opcode w = 0x5B#7) :
    decode w = .ok (.stm (Field.tileRd w) (Field.tileRs1 w) (Field.tileStride w) (Field.immM w)) := by
  simp [decode, ne_sentinel h (by decide), h, opcGemm, opcLdm, opcStm]

theorem decode_sentinel_opcode (h : Field.opcode w = 0x7F#7) (hw : w ≠ 0xFFFFFFFF#32) :
    decode w = .error .notTheSentinel := by
  simp [decode, hw, h, opcGemm, opcLdm, opcStm]

end dispatch

/-! ## Decoding a word of each format, given by its number -/

section formats

variable {w : Word} {rd rs1 rs2 : XReg}

/-- The fields of an R-format word (R85). -/
theorem reg_fields {f7 f3 opc : Nat} (h7 : f7 < 2 ^ 7) (h3 : f3 < 2 ^ 3) (ho : opc < 2 ^ 7)
    (h : w.toNat = f7 * 2 ^ 25 + rs2.val * 2 ^ 20 + rs1.val * 2 ^ 15 + f3 * 2 ^ 12 + rd.val * 2 ^ 7 + opc) :
    Field.opcode w = BitVec.ofNat 7 opc ∧ Field.rd w = rd ∧ Field.funct3 w = BitVec.ofNat 3 f3 ∧
    Field.rs1 w = rs1 ∧ Field.rs2 w = rs2 ∧ Field.funct7 w = BitVec.ofNat 7 f7 := by
  refine ⟨(eq_of_number _ _ ho).mpr ?_, Fin.ext ?_, (eq_of_number _ _ h3).mpr ?_, Fin.ext ?_, Fin.ext ?_,
    (eq_of_number _ _ h7).mpr ?_⟩
  · rw [Field.opcode_toNat, h]; omega
  · rw [Field.rd_val, h]; omega
  · rw [Field.funct3_toNat, h]; omega
  · rw [Field.rs1_val, h]; omega
  · rw [Field.rs2_val, h]; omega
  · rw [Field.funct7_toNat, h]; omega

/-- The fields of an I-format word (R86). -/
theorem imm_fields {imm : BitVec 12} {f3 opc : Nat} (h3 : f3 < 2 ^ 3) (ho : opc < 2 ^ 7)
    (h : w.toNat = imm.toNat * 2 ^ 20 + rs1.val * 2 ^ 15 + f3 * 2 ^ 12 + rd.val * 2 ^ 7 + opc) :
    Field.opcode w = BitVec.ofNat 7 opc ∧ Field.rd w = rd ∧ Field.funct3 w = BitVec.ofNat 3 f3 ∧
    Field.rs1 w = rs1 ∧ Field.immI w = imm := by
  have := imm.isLt
  refine ⟨(eq_of_number _ _ ho).mpr ?_, Fin.ext ?_, (eq_of_number _ _ h3).mpr ?_, Fin.ext ?_,
    BitVec.eq_of_toNat_eq ?_⟩
  · rw [Field.opcode_toNat, h]; omega
  · rw [Field.rd_val, h]; omega
  · rw [Field.funct3_toNat, h]; omega
  · rw [Field.rs1_val, h]; omega
  · rw [Field.immI_toNat, h]; omega

/-- The shift forms' reading of the I immediate (R86, R101). -/
theorem shift_fields {f7 : Nat} {shamt : BitVec 5} (h7 : f7 < 2 ^ 7) {f3 opc : Nat} (h3 : f3 < 2 ^ 3) (ho : opc < 2 ^ 7)
    (h : w.toNat = (f7 * 2 ^ 5 + shamt.toNat) * 2 ^ 20 + rs1.val * 2 ^ 15 + f3 * 2 ^ 12 + rd.val * 2 ^ 7 + opc) :
    Field.funct7 w = BitVec.ofNat 7 f7 ∧ Field.shamt w = shamt := by
  have := shamt.isLt
  refine ⟨(eq_of_number _ _ h7).mpr ?_, BitVec.eq_of_toNat_eq ?_⟩
  · rw [Field.funct7_toNat, h]; omega
  · rw [Field.shamt_toNat, h]; omega

/-- The fields of an S-format word (R87). -/
theorem store_fields {imm : BitVec 12} {f3 opc : Nat} (h3 : f3 < 2 ^ 3) (ho : opc < 2 ^ 7)
    (h : w.toNat = imm.toNat / 2 ^ 5 * 2 ^ 25 + rs2.val * 2 ^ 20 + rs1.val * 2 ^ 15 + f3 * 2 ^ 12
      + imm.toNat % 2 ^ 5 * 2 ^ 7 + opc) :
    Field.opcode w = BitVec.ofNat 7 opc ∧ Field.funct3 w = BitVec.ofNat 3 f3 ∧ Field.rs1 w = rs1 ∧
    Field.rs2 w = rs2 ∧ Field.immS w = imm := by
  have hi : imm.toNat = imm.toNat / 2 ^ 5 * 2 ^ 5 + imm.toNat % 2 ^ 5 := by omega
  have h5 : imm.toNat / 2 ^ 5 < 2 ^ 7 := by omega
  have h0 : imm.toNat % 2 ^ 5 < 2 ^ 5 := by omega
  generalize imm.toNat / 2 ^ 5 = p5 at hi h5 h
  generalize imm.toNat % 2 ^ 5 = p0 at hi h0 h
  refine ⟨(eq_of_number _ _ ho).mpr ?_, (eq_of_number _ _ h3).mpr ?_, Fin.ext ?_, Fin.ext ?_,
    BitVec.eq_of_toNat_eq ?_⟩
  · rw [Field.opcode_toNat, h]; omega
  · rw [Field.funct3_toNat]
    exact field_of_sum (high := p5 * 2 ^ 10 + rs2.val * 2 ^ 5 + rs1.val)
      (low := p0 * 2 ^ 7 + opc) (2 ^ 12) (2 ^ 3) (by rw [h]; ring) h3 (by omega)
  · rw [Field.rs1_val]
    exact field_of_sum (high := p5 * 2 ^ 5 + rs2.val) (low := f3 * 2 ^ 12 + p0 * 2 ^ 7 + opc)
      (2 ^ 15) (2 ^ 5) (by rw [h]; ring) rs1.isLt (by omega)
  · rw [Field.rs2_val]
    exact field_of_sum (high := p5) (low := rs1.val * 2 ^ 15 + f3 * 2 ^ 12 + p0 * 2 ^ 7 + opc)
      (2 ^ 20) (2 ^ 5) (by rw [h]; ring) rs2.isLt (by omega)
  · rw [Field.immS_toNat, hi,
      field_of_sum (k := w.toNat) (f := p5) (high := 0)
        (low := rs2.val * 2 ^ 20 + rs1.val * 2 ^ 15 + f3 * 2 ^ 12 + p0 * 2 ^ 7 + opc)
        (2 ^ 25) (2 ^ 7) (by rw [h]; ring) h5 (by omega),
      field_of_sum (k := w.toNat) (f := p0) (high := p5 * 2 ^ 13 + rs2.val * 2 ^ 8 + rs1.val * 2 ^ 3 + f3)
        (low := opc) (2 ^ 7) (2 ^ 5) (by rw [h]; ring) h0 (by omega)]

/-- The fields of a B-format word (R88). -/
theorem branch_fields {imm : BitVec 13} {f3 opc : Nat} (h3 : f3 < 2 ^ 3) (ho : opc < 2 ^ 7) (he : evenOffset imm = true)
    (h : w.toNat = imm.toNat / 2 ^ 12 * 2 ^ 31 + imm.toNat / 2 ^ 5 % 2 ^ 6 * 2 ^ 25 + rs2.val * 2 ^ 20
      + rs1.val * 2 ^ 15 + f3 * 2 ^ 12 + imm.toNat / 2 % 2 ^ 4 * 2 ^ 8 + imm.toNat / 2 ^ 11 % 2 * 2 ^ 7 + opc) :
    Field.opcode w = BitVec.ofNat 7 opc ∧ Field.funct3 w = BitVec.ofNat 3 f3 ∧ Field.rs1 w = rs1 ∧
    Field.rs2 w = rs2 ∧ Field.immB w = imm := by
  have hi := branchOffset_parts imm he
  have h12 : imm.toNat / 2 ^ 12 < 2 := by omega
  have h11 : imm.toNat / 2 ^ 11 % 2 < 2 := by omega
  have h5 : imm.toNat / 2 ^ 5 % 2 ^ 6 < 2 ^ 6 := by omega
  have h1 : imm.toNat / 2 % 2 ^ 4 < 2 ^ 4 := by omega
  generalize imm.toNat / 2 ^ 12 = p12 at hi h12 h
  generalize imm.toNat / 2 ^ 11 % 2 = p11 at hi h11 h
  generalize imm.toNat / 2 ^ 5 % 2 ^ 6 = p5 at hi h5 h
  generalize imm.toNat / 2 % 2 ^ 4 = p1 at hi h1 h
  refine ⟨(eq_of_number _ _ ho).mpr ?_, (eq_of_number _ _ h3).mpr ?_, Fin.ext ?_, Fin.ext ?_,
    BitVec.eq_of_toNat_eq ?_⟩
  · rw [Field.opcode_toNat, h]; omega
  · rw [Field.funct3_toNat]
    exact field_of_sum (high := p12 * 2 ^ 16 + p5 * 2 ^ 10 + rs2.val * 2 ^ 5 + rs1.val)
      (low := p1 * 2 ^ 8 + p11 * 2 ^ 7 + opc) (2 ^ 12) (2 ^ 3) (by rw [h]; ring) h3 (by omega)
  · rw [Field.rs1_val]
    exact field_of_sum (high := p12 * 2 ^ 11 + p5 * 2 ^ 5 + rs2.val)
      (low := f3 * 2 ^ 12 + p1 * 2 ^ 8 + p11 * 2 ^ 7 + opc) (2 ^ 15) (2 ^ 5) (by rw [h]; ring) rs1.isLt (by omega)
  · rw [Field.rs2_val]
    exact field_of_sum (high := p12 * 2 ^ 6 + p5)
      (low := rs1.val * 2 ^ 15 + f3 * 2 ^ 12 + p1 * 2 ^ 8 + p11 * 2 ^ 7 + opc)
      (2 ^ 20) (2 ^ 5) (by rw [h]; ring) rs2.isLt (by omega)
  · rw [Field.immB_toNat, hi,
      field_of_sum (k := w.toNat) (f := p12) (high := 0) (low := p5 * 2 ^ 25 + rs2.val * 2 ^ 20 + rs1.val * 2 ^ 15
        + f3 * 2 ^ 12 + p1 * 2 ^ 8 + p11 * 2 ^ 7 + opc) (2 ^ 31) 2 (by rw [h]; ring) h12 (by omega),
      field_of_sum (k := w.toNat) (f := p5) (high := p12) (low := rs2.val * 2 ^ 20 + rs1.val * 2 ^ 15
        + f3 * 2 ^ 12 + p1 * 2 ^ 8 + p11 * 2 ^ 7 + opc) (2 ^ 25) (2 ^ 6) (by rw [h]; ring) h5 (by omega),
      field_of_sum (k := w.toNat) (f := p1) (high := p12 * 2 ^ 19 + p5 * 2 ^ 13 + rs2.val * 2 ^ 8 + rs1.val * 2 ^ 3 + f3)
        (low := p11 * 2 ^ 7 + opc) (2 ^ 8) (2 ^ 4) (by rw [h]; ring) h1 (by omega),
      field_of_sum (k := w.toNat) (f := p11) (high := p12 * 2 ^ 23 + p5 * 2 ^ 17 + rs2.val * 2 ^ 12 + rs1.val * 2 ^ 7
        + f3 * 2 ^ 4 + p1) (low := opc) (2 ^ 7) 2 (by rw [h]; ring) h11 (by omega)]

/-- The fields of a U-format word (R89). -/
theorem upper_fields {imm : BitVec 20} {opc : Nat} (ho : opc < 2 ^ 7)
    (h : w.toNat = imm.toNat * 2 ^ 12 + rd.val * 2 ^ 7 + opc) :
    Field.opcode w = BitVec.ofNat 7 opc ∧ Field.rd w = rd ∧ Field.immU w = imm := by
  have := imm.isLt
  refine ⟨(eq_of_number _ _ ho).mpr ?_, Fin.ext ?_, BitVec.eq_of_toNat_eq ?_⟩
  · rw [Field.opcode_toNat, h]; omega
  · rw [Field.rd_val, h]; omega
  · rw [Field.immU_toNat, h]; omega

/-- The fields of a J-format word (R90). -/
theorem jump_fields {imm : BitVec 21} {opc : Nat} (ho : opc < 2 ^ 7) (he : evenOffset imm = true)
    (h : w.toNat = imm.toNat / 2 ^ 20 * 2 ^ 31 + imm.toNat / 2 % 2 ^ 10 * 2 ^ 21 + imm.toNat / 2 ^ 11 % 2 * 2 ^ 20
      + imm.toNat / 2 ^ 12 % 2 ^ 8 * 2 ^ 12 + rd.val * 2 ^ 7 + opc) :
    Field.opcode w = BitVec.ofNat 7 opc ∧ Field.rd w = rd ∧ Field.immJ w = imm := by
  have hi := jumpOffset_parts imm he
  have h20 : imm.toNat / 2 ^ 20 < 2 := by omega
  have h12 : imm.toNat / 2 ^ 12 % 2 ^ 8 < 2 ^ 8 := by omega
  have h11 : imm.toNat / 2 ^ 11 % 2 < 2 := by omega
  have h1 : imm.toNat / 2 % 2 ^ 10 < 2 ^ 10 := by omega
  generalize imm.toNat / 2 ^ 20 = p20 at hi h20 h
  generalize imm.toNat / 2 ^ 12 % 2 ^ 8 = p12 at hi h12 h
  generalize imm.toNat / 2 ^ 11 % 2 = p11 at hi h11 h
  generalize imm.toNat / 2 % 2 ^ 10 = p1 at hi h1 h
  refine ⟨(eq_of_number _ _ ho).mpr ?_, Fin.ext ?_, BitVec.eq_of_toNat_eq ?_⟩
  · rw [Field.opcode_toNat, h]; omega
  · rw [Field.rd_val, h]; omega
  · rw [Field.immJ_toNat, hi,
      field_of_sum (k := w.toNat) (f := p20) (high := 0) (low := p1 * 2 ^ 21 + p11 * 2 ^ 20 + p12 * 2 ^ 12
        + rd.val * 2 ^ 7 + opc) (2 ^ 31) 2 (by rw [h]; ring) h20 (by omega),
      field_of_sum (k := w.toNat) (f := p1) (high := p20) (low := p11 * 2 ^ 20 + p12 * 2 ^ 12 + rd.val * 2 ^ 7 + opc)
        (2 ^ 21) (2 ^ 10) (by rw [h]; ring) h1 (by omega),
      field_of_sum (k := w.toNat) (f := p11) (high := p20 * 2 ^ 10 + p1) (low := p12 * 2 ^ 12 + rd.val * 2 ^ 7 + opc)
        (2 ^ 20) 2 (by rw [h]; ring) h11 (by omega),
      field_of_sum (k := w.toNat) (f := p12) (high := p20 * 2 ^ 11 + p1 * 2 + p11)
        (low := rd.val * 2 ^ 7 + opc) (2 ^ 12) (2 ^ 8) (by rw [h]; ring) h12 (by omega)]

/-- The fields of a Matrix-ALU word (R92). -/
theorem gemm_fields {md ma mb mc : MReg} {reserved opc : Nat} (hr : reserved < 2 ^ 9) (ho : opc < 2 ^ 7)
    (h : w.toNat = reserved * 2 ^ 23 + mc.val * 2 ^ 19 + mb.val * 2 ^ 15 + ma.val * 2 ^ 11 + md.val * 2 ^ 7 + opc) :
    Field.opcode w = BitVec.ofNat 7 opc ∧ Field.gemmReserved w = BitVec.ofNat 9 reserved ∧ Field.gemmRd w = md ∧
    Field.gemmRa w = ma ∧ Field.gemmRb w = mb ∧ Field.gemmRc w = mc := by
  refine ⟨(eq_of_number _ _ ho).mpr ?_, (eq_of_number _ _ hr).mpr ?_, Fin.ext ?_, Fin.ext ?_, Fin.ext ?_, Fin.ext ?_⟩
  · rw [Field.opcode_toNat, h]; omega
  · rw [Field.gemmReserved_toNat, h]; omega
  · rw [Field.gemmRd_val, h]; omega
  · rw [Field.gemmRa_val, h]; omega
  · rw [Field.gemmRb_val, h]; omega
  · rw [Field.gemmRc_val, h]; omega

/-- The fields of a Matrix-Mem word (R93). -/
theorem tile_fields {md : MReg} {stride : BitVec 5} {imm : BitVec 11} {opc : Nat} (ho : opc < 2 ^ 7)
    (h : w.toNat = imm.toNat * 2 ^ 21 + stride.toNat * 2 ^ 16 + rs1.val * 2 ^ 11 + md.val * 2 ^ 7 + opc) :
    Field.opcode w = BitVec.ofNat 7 opc ∧ Field.tileRd w = md ∧ Field.tileRs1 w = rs1 ∧
    Field.tileStride w = stride ∧ Field.immM w = imm := by
  have := imm.isLt
  have := stride.isLt
  refine ⟨(eq_of_number _ _ ho).mpr ?_, Fin.ext ?_, Fin.ext ?_, BitVec.eq_of_toNat_eq ?_, BitVec.eq_of_toNat_eq ?_⟩
  · rw [Field.opcode_toNat, h]; omega
  · rw [Field.tileRd_val, h]; omega
  · rw [Field.tileRs1_val, h]; omega
  · rw [Field.tileStride_toNat, h]; omega
  · rw [Field.immM_toNat, h]; omega

end formats

/-! ## A word is made of its fields -/

section parts

variable (w : Word)

/-- A number cut at a place. -/
theorem cut (k p : Nat) : k = k / p * p + k % p := by rw [Nat.mul_comm]; exact (Nat.div_add_mod k p).symm

theorem div_cut (k p q : Nat) : k / p = k / (p * q) * q + k / p % q := by
  rw [← Nat.div_div_eq_div_mul]; exact cut (k / p) q

/-- R85. -/
theorem reg_parts : Format.r (Field.funct7 w) (Field.rs2 w) (Field.rs1 w) (Field.funct3 w) (Field.rd w)
    (Field.opcode w) = w := by
  apply BitVec.eq_of_toNat_eq
  have hw := w.isLt
  rw [Format.r_toNat, Field.funct7_toNat, Field.rs2_val, Field.rs1_val, Field.funct3_toNat, Field.rd_val,
    Field.opcode_toNat]
  have c0 := cut w.toNat (2 ^ 7)
  have c1 := div_cut w.toNat (2 ^ 7) (2 ^ 5)
  have c2 := div_cut w.toNat (2 ^ 12) (2 ^ 3)
  have c3 := div_cut w.toNat (2 ^ 15) (2 ^ 5)
  have c4 := div_cut w.toNat (2 ^ 20) (2 ^ 5)
  omega

/-- R86. -/
theorem imm_parts : Format.i (Field.immI w) (Field.rs1 w) (Field.funct3 w) (Field.rd w) (Field.opcode w) = w := by
  apply BitVec.eq_of_toNat_eq
  have hw := w.isLt
  rw [Format.i_toNat, Field.immI_toNat, Field.rs1_val, Field.funct3_toNat, Field.rd_val, Field.opcode_toNat]
  have c0 := cut w.toNat (2 ^ 7)
  have c1 := div_cut w.toNat (2 ^ 7) (2 ^ 5)
  have c2 := div_cut w.toNat (2 ^ 12) (2 ^ 3)
  have c3 := div_cut w.toNat (2 ^ 15) (2 ^ 5)
  omega

/-- R101: the I immediate of a shift form is its funct7 and its shift amount. -/
theorem immI_parts : (Field.funct7 w ++ Field.shamt w : BitVec 12) = Field.immI w := by
  apply BitVec.eq_of_toNat_eq
  have hw := w.isLt
  refine (append_toNat _ _).trans ?_
  rw [Field.immI_toNat, Field.funct7_toNat, Field.shamt_toNat]
  have c4 := div_cut w.toNat (2 ^ 20) (2 ^ 5)
  omega

/-- R87. -/
theorem store_parts : Format.s (Field.immS w) (Field.rs2 w) (Field.rs1 w) (Field.funct3 w) (Field.opcode w) = w := by
  apply BitVec.eq_of_toNat_eq
  have hw := w.isLt
  rw [Format.s_toNat, Field.immS_toNat, Field.rs2_val, Field.rs1_val, Field.funct3_toNat, Field.opcode_toNat]
  have c0 := cut w.toNat (2 ^ 7)
  have c1 := div_cut w.toNat (2 ^ 7) (2 ^ 5)
  have c2 := div_cut w.toNat (2 ^ 12) (2 ^ 3)
  have c3 := div_cut w.toNat (2 ^ 15) (2 ^ 5)
  have c4 := div_cut w.toNat (2 ^ 20) (2 ^ 5)
  omega

/-- The parts of an offset written out as the B format's (R97). -/
theorem branchOffset_digits {k b12 b11 b5 b1 : Nat} (h : k = b12 * 2 ^ 12 + b11 * 2 ^ 11 + b5 * 2 ^ 5 + b1 * 2)
    (h11 : b11 < 2) (h5 : b5 < 2 ^ 6) (h1 : b1 < 2 ^ 4) :
    k / 2 ^ 12 = b12 ∧ k / 2 ^ 11 % 2 = b11 ∧ k / 2 ^ 5 % 2 ^ 6 = b5 ∧ k / 2 % 2 ^ 4 = b1 :=
  ⟨by omega,
   field_of_sum (high := b12) (low := b5 * 2 ^ 5 + b1 * 2) _ _ (by rw [h]; ring) h11 (by omega),
   field_of_sum (high := b12 * 2 + b11) (low := b1 * 2) _ _ (by rw [h]; ring) h5 (by omega),
   field_of_sum (high := b12 * 2 ^ 7 + b11 * 2 ^ 6 + b5) (low := 0) _ _ (by rw [h]; ring) h1 (by omega)⟩

/-- R88. -/
theorem branch_parts : Format.b (Field.immB w) (Field.rs2 w) (Field.rs1 w) (Field.funct3 w) (Field.opcode w) = w := by
  apply BitVec.eq_of_toNat_eq
  have hw := w.isLt
  obtain ⟨d12, d11, d5, d1⟩ := branchOffset_digits (Field.immB_toNat w) (Nat.mod_lt _ (by omega))
    (Nat.mod_lt _ (by omega)) (Nat.mod_lt _ (by omega))
  rw [Format.b_toNat, d12, d11, d5, d1, Field.rs2_val, Field.rs1_val, Field.funct3_toNat, Field.opcode_toNat,
    show w.toNat / 2 ^ 31 % 2 = w.toNat / 2 ^ 31 from Nat.mod_eq_of_lt (by omega)]
  have c0 := cut w.toNat (2 ^ 7)
  have c1 := div_cut w.toNat (2 ^ 7) 2
  have c2 := div_cut w.toNat (2 ^ 8) (2 ^ 4)
  have c3 := div_cut w.toNat (2 ^ 12) (2 ^ 3)
  have c4 := div_cut w.toNat (2 ^ 15) (2 ^ 5)
  have c5 := div_cut w.toNat (2 ^ 20) (2 ^ 5)
  have c6 := div_cut w.toNat (2 ^ 25) (2 ^ 6)
  clear d12 d11 d5 d1
  omega

/-- R89. -/
theorem upper_parts : Format.u (Field.immU w) (Field.rd w) (Field.opcode w) = w := by
  apply BitVec.eq_of_toNat_eq
  have hw := w.isLt
  rw [Format.u_toNat, Field.immU_toNat, Field.rd_val, Field.opcode_toNat]
  have c0 := cut w.toNat (2 ^ 7)
  have c1 := div_cut w.toNat (2 ^ 7) (2 ^ 5)
  omega

/-- The parts of an offset written out as the J format's (R99). -/
theorem jumpOffset_digits {k b20 b12 b11 b1 : Nat} (h : k = b20 * 2 ^ 20 + b12 * 2 ^ 12 + b11 * 2 ^ 11 + b1 * 2)
    (h12 : b12 < 2 ^ 8) (h11 : b11 < 2) (h1 : b1 < 2 ^ 10) :
    k / 2 ^ 20 = b20 ∧ k / 2 % 2 ^ 10 = b1 ∧ k / 2 ^ 11 % 2 = b11 ∧ k / 2 ^ 12 % 2 ^ 8 = b12 :=
  ⟨by omega,
   field_of_sum (high := b20 * 2 ^ 9 + b12 * 2 + b11) (low := 0) _ _ (by rw [h]; ring) h1 (by omega),
   field_of_sum (high := b20 * 2 ^ 8 + b12) (low := b1 * 2) _ _ (by rw [h]; ring) h11 (by omega),
   field_of_sum (high := b20) (low := b11 * 2 ^ 11 + b1 * 2) _ _ (by rw [h]; ring) h12 (by omega)⟩

/-- R90. -/
theorem jump_parts : Format.j (Field.immJ w) (Field.rd w) (Field.opcode w) = w := by
  apply BitVec.eq_of_toNat_eq
  have hw := w.isLt
  obtain ⟨d20, d1, d11, d12⟩ := jumpOffset_digits (Field.immJ_toNat w) (Nat.mod_lt _ (by omega))
    (Nat.mod_lt _ (by omega)) (Nat.mod_lt _ (by omega))
  rw [Format.j_toNat, d20, d1, d11, d12, Field.rd_val, Field.opcode_toNat,
    show w.toNat / 2 ^ 31 % 2 = w.toNat / 2 ^ 31 from Nat.mod_eq_of_lt (by omega)]
  have c0 := cut w.toNat (2 ^ 7)
  have c1 := div_cut w.toNat (2 ^ 7) (2 ^ 5)
  have c2 := div_cut w.toNat (2 ^ 12) (2 ^ 8)
  have c3 := div_cut w.toNat (2 ^ 20) 2
  have c4 := div_cut w.toNat (2 ^ 21) (2 ^ 10)
  clear d20 d1 d11 d12
  omega

/-- R92. -/
theorem gemm_parts (h : Field.gemmReserved w = 0#9) : Format.matrixAlu (Field.gemmRc w) (Field.gemmRb w)
    (Field.gemmRa w) (Field.gemmRd w) (Field.opcode w) = w := by
  apply BitVec.eq_of_toNat_eq
  have hw := w.isLt
  have hr := Field.gemmReserved_toNat w
  rw [h] at hr
  rw [Format.matrixAlu_toNat, Field.gemmRc_val, Field.gemmRb_val, Field.gemmRa_val, Field.gemmRd_val,
    Field.opcode_toNat]
  have c0 := cut w.toNat (2 ^ 7)
  have c1 := div_cut w.toNat (2 ^ 7) (2 ^ 4)
  have c2 := div_cut w.toNat (2 ^ 11) (2 ^ 4)
  have c3 := div_cut w.toNat (2 ^ 15) (2 ^ 4)
  have c4 := div_cut w.toNat (2 ^ 19) (2 ^ 4)
  have h0 : (0#9).toNat = 0 := rfl
  omega

/-- R93. -/
theorem tile_parts : Format.matrixMem (Field.immM w) (Field.tileStride w) (Field.tileRs1 w) (Field.tileRd w)
    (Field.opcode w) = w := by
  apply BitVec.eq_of_toNat_eq
  have hw := w.isLt
  rw [Format.matrixMem_toNat, Field.immM_toNat, Field.tileStride_toNat, Field.tileRs1_val, Field.tileRd_val,
    Field.opcode_toNat]
  have c0 := cut w.toNat (2 ^ 7)
  have c1 := div_cut w.toNat (2 ^ 7) (2 ^ 4)
  have c2 := div_cut w.toNat (2 ^ 11) (2 ^ 5)
  have c3 := div_cut w.toNat (2 ^ 16) (2 ^ 5)
  omega

/-- Bit 0 of a decoded offset is 0 (R97, R99). -/
theorem immB_even : evenOffset (Field.immB w) = true := by
  rw [evenOffset_toNat, Field.immB_toNat]
  omega

theorem immJ_even : evenOffset (Field.immJ w) = true := by
  rw [evenOffset_toNat, Field.immJ_toNat]
  omega

end parts

end Sys2Proof
end

