-- ==== Sys2Proof/Laws/Memory.lean ====
section
/-! SUPPORT. The laws of memory: what a read gives after a write, and that every operation keeps the canonical form. -/

namespace Sys2Proof.Machine

namespace Cells

theorem sorted_cons (c : Host.Cell) (rest : List Host.Cell) :
    sorted (c :: rest) ↔ (∀ d ∈ rest, c.1 < d.1) ∧ sorted rest := List.pairwise_cons

theorem lookup_erase (cells : List Host.Cell) (a x : Nat) :
    lookup (erase cells a) x = if x = a then unlistedByte else lookup cells x := by
  induction cells with
  | nil => simp [erase, lookup]
  | cons c rest ih =>
    obtain ⟨k, v⟩ := c
    by_cases hk : k = a
    · rw [erase, if_pos hk, ih]
      by_cases hx : x = a
      · simp [hx]
      · rw [if_neg hx, if_neg hx, lookup, if_neg (by omega)]
    · rw [erase, if_neg hk, lookup, lookup, ih]
      by_cases hx : k = x
      · rw [if_pos hx, if_neg (by omega), if_pos hx]
      · rw [if_neg hx, if_neg hx]

theorem lookup_place (cells : List Host.Cell) (a : Nat) (b : Byte) (x : Nat) (hno : ∀ c ∈ cells, c.1 ≠ a) :
    lookup (place cells a b) x = if x = a then b else lookup cells x := by
  induction cells with
  | nil => simp [place, lookup, eq_comm]
  | cons c rest ih =>
    obtain ⟨k, v⟩ := c
    have hk : k ≠ a := hno (k, v) (by simp)
    have ih := ih fun c hc => hno c (by simp [hc])
    by_cases hlt : a < k
    · rw [place, if_pos hlt, lookup]
      by_cases hx : x = a
      · rw [if_pos hx.symm, if_pos hx]
      · rw [if_neg (Ne.symm hx), if_neg hx]
    · rw [place, if_neg hlt, lookup, lookup, ih]
      by_cases hx : k = x
      · rw [if_pos hx, if_neg (by omega), if_pos hx]
      · rw [if_neg hx, if_neg hx]

theorem erase_no (cells : List Host.Cell) (a : Nat) : ∀ c ∈ erase cells a, c.1 ≠ a := by
  induction cells with
  | nil => simp [erase]
  | cons c rest ih =>
    obtain ⟨k, v⟩ := c
    by_cases hk : k = a
    · simpa [erase, hk] using ih
    · simpa [erase, hk] using ih

theorem erase_subset (cells : List Host.Cell) (a : Nat) : ∀ c ∈ erase cells a, c ∈ cells := by
  induction cells with
  | nil => simp [erase]
  | cons c rest ih =>
    obtain ⟨k, v⟩ := c
    intro d hd
    by_cases hk : k = a
    · simp only [erase, hk, if_true] at hd
      exact List.mem_cons_of_mem _ (ih d hd)
    · simp only [erase, hk, if_false, List.mem_cons] at hd
      rcases hd with rfl | hd
      · simp
      · exact List.mem_cons_of_mem _ (ih d hd)

/-- A byte read after a byte is written. -/
theorem lookup_write (cells : List Host.Cell) (a : Nat) (b : Byte) (x : Nat) :
    lookup (write cells a b) x = if x = a then b else lookup cells x := by
  unfold write
  by_cases hb : b = unlistedByte
  · by_cases hx : x = a <;> simp [hb, lookup_erase, hx]
  · rw [if_neg hb, lookup_place _ _ _ _ (erase_no _ _), lookup_erase]
    by_cases hx : x = a <;> simp [hx]

theorem mem_place (cells : List Host.Cell) (a : Nat) (b : Byte) (c : Host.Cell) :
    c ∈ place cells a b ↔ c = (a, b) ∨ c ∈ cells := by
  induction cells with
  | nil => simp [place]
  | cons d rest ih =>
    obtain ⟨k, v⟩ := d
    by_cases hlt : a < k
    · simp [place, hlt]
    · simp only [place, hlt, if_false, List.mem_cons, ih]
      tauto

theorem sorted_erase (cells : List Host.Cell) (a : Nat) (h : sorted cells) : sorted (erase cells a) := by
  induction cells with
  | nil => simp [erase]
  | cons c rest ih =>
    obtain ⟨k, v⟩ := c
    rw [sorted_cons] at h
    by_cases hk : k = a
    · simpa [erase, hk] using ih h.2
    · rw [erase, if_neg hk, sorted_cons]
      exact ⟨fun d hd => h.1 d (erase_subset _ _ d hd), ih h.2⟩

theorem sorted_place (cells : List Host.Cell) (a : Nat) (b : Byte) (h : sorted cells)
    (hno : ∀ c ∈ cells, c.1 ≠ a) : sorted (place cells a b) := by
  induction cells with
  | nil => simp [place]
  | cons c rest ih =>
    obtain ⟨k, v⟩ := c
    rw [sorted_cons] at h
    have hk : k ≠ a := hno (k, v) (by simp)
    by_cases hlt : a < k
    · rw [place, if_pos hlt, sorted_cons, sorted_cons]
      refine ⟨fun d hd => ?_, h⟩
      rcases List.mem_cons.mp hd with rfl | hd
      · exact hlt
      · exact lt_trans hlt (h.1 d hd)
    · rw [place, if_neg hlt, sorted_cons]
      refine ⟨fun d hd => ?_, ih h.2 fun c hc => hno c (by simp [hc])⟩
      rcases (mem_place _ _ _ _).mp hd with rfl | hd
      · exact lt_of_le_of_ne (not_lt.mp hlt) hk
      · exact h.1 d hd

theorem sorted_write (cells : List Host.Cell) (a : Nat) (b : Byte) (h : sorted cells) :
    sorted (write cells a b) := by
  unfold write
  split
  · exact sorted_erase _ _ h
  · exact sorted_place _ _ _ (sorted_erase _ _ h) (erase_no _ _)

theorem mem_write (cells : List Host.Cell) (a : Nat) (b : Byte) (c : Host.Cell) (h : c ∈ write cells a b) :
    (c = (a, b) ∧ b ≠ unlistedByte) ∨ c ∈ cells := by
  unfold write at h
  split at h
  · exact .inr (erase_subset _ _ _ h)
  · rename_i hb
    rcases (mem_place _ _ _ _).mp h with rfl | h
    · exact .inl ⟨rfl, hb⟩
    · exact .inr (erase_subset _ _ _ h)

end Cells

/-! ## Sizes -/

@[simp] theorem writeByte_size (mem : Memory) (a : Nat) (b : Byte) : (mem.writeByte a b).size = mem.size := rfl

@[simp] theorem writeBytes_size (mem : Memory) (a : Nat) (bs : List Byte) : (mem.writeBytes a bs).size = mem.size := by
  induction bs generalizing mem a with
  | nil => rfl
  | cons b rest ih => simp [Memory.writeBytes, ih]

@[simp] theorem storeWord_size (mem : Memory) (a : Nat) (v : Word) : (mem.storeWord a v).size = mem.size := by
  simp [Memory.storeWord]

@[simp] theorem storeTile_size (mem : Memory) (a : Nat) (t : Tile) : (mem.storeTile a t).size = mem.size := by
  simp [Memory.storeTile]

@[simp] theorem wordBytes_length (v : Word) : (wordBytes v).length = 4 := rfl
@[simp] theorem tileBytes_length (t : Tile) : (tileBytes t).length = 32 := rfl

/-! ## Reads after writes -/

theorem readByte_writeByte (mem : Memory) (a : Nat) (b : Byte) (x : Nat) :
    (mem.writeByte a b).readByte x = if x = a then b else mem.readByte x := Cells.lookup_write _ _ _ _

theorem readByte_writeBytes_before (mem : Memory) (a : Nat) (bs : List Byte) (x : Nat) (h : x < a) :
    (mem.writeBytes a bs).readByte x = mem.readByte x := by
  induction bs generalizing mem a with
  | nil => rfl
  | cons b rest ih =>
    rw [Memory.writeBytes, ih _ _ (by omega), readByte_writeByte, if_neg (by omega)]

/-- The bytes outside the written ones read as before. -/
theorem readByte_writeBytes_outside (mem : Memory) (a : Nat) (bs : List Byte) (x : Nat)
    (h : x < a ∨ a + bs.length ≤ x) : (mem.writeBytes a bs).readByte x = mem.readByte x := by
  induction bs generalizing mem a with
  | nil => rfl
  | cons b rest ih =>
    simp only [List.length_cons] at h
    rw [Memory.writeBytes, ih _ _ (by omega), readByte_writeByte, if_neg (by omega)]

/-- The written bytes read as written. -/
theorem readByte_writeBytes_inside (mem : Memory) (a : Nat) (bs : List Byte) (k : Nat) (h : k < bs.length) :
    (mem.writeBytes a bs).readByte (a + k) = bs[k] := by
  induction bs generalizing mem a k with
  | nil => simp at h
  | cons b rest ih =>
    rw [Memory.writeBytes]
    cases k with
    | zero => simp [readByte_writeBytes_before, readByte_writeByte]
    | succ k =>
      have := ih (mem.writeByte a b) (a + 1) k (by simpa using h)
      rw [show a + (k + 1) = a + 1 + k by omega, this]
      rfl

theorem readByte_storeWord_outside (mem : Memory) (a : Nat) (v : Word) (x : Nat) (h : x < a ∨ a + 4 ≤ x) :
    (mem.storeWord a v).readByte x = mem.readByte x := readByte_writeBytes_outside _ _ _ _ (by simpa using h)

theorem readByte_storeTile_outside (mem : Memory) (a : Nat) (t : Tile) (x : Nat) (h : x < a ∨ a + 32 ≤ x) :
    (mem.storeTile a t).readByte x = mem.readByte x := readByte_writeBytes_outside _ _ _ _ (by simpa using h)

/-! ## The canonical form -/

theorem writeByte_wf (mem : Memory) (a : Nat) (b : Byte) (h : mem.wf) (ha : a < mem.size) :
    (mem.writeByte a b).wf := by
  refine ⟨Cells.sorted_write _ _ _ h.1, fun c hc => ?_, h.2.2⟩
  rcases Cells.mem_write _ _ _ _ hc with ⟨rfl, hb⟩ | hc
  · exact ⟨hb, ha⟩
  · exact h.2.1 c hc

theorem writeBytes_wf (mem : Memory) (a : Nat) (bs : List Byte) (h : mem.wf) (ha : a + bs.length ≤ mem.size) :
    (mem.writeBytes a bs).wf := by
  induction bs generalizing mem a with
  | nil => exact h
  | cons b rest ih =>
    simp only [List.length_cons] at ha
    exact ih _ _ (writeByte_wf _ _ _ h (by omega)) (by simp; omega)

theorem storeWord_wf (mem : Memory) (a : Nat) (v : Word) (h : mem.wf) (ha : a + 4 ≤ mem.size) :
    (mem.storeWord a v).wf := writeBytes_wf _ _ _ h (by simpa using ha)

theorem storeTile_wf (mem : Memory) (a : Nat) (t : Tile) (h : mem.wf) (ha : a + 32 ≤ mem.size) :
    (mem.storeTile a t).wf := writeBytes_wf _ _ _ h (by simpa using ha)

theorem reset_memory_wf : State.reset.mem.wf := by decide

end Sys2Proof.Machine
end

