-- ==== Sys2Proof/Laws/Bytes.lean ====
section
/-! SUPPORT. Words, elements and tiles as the bytes and elements they are made of (spec/20_memory.md R55, R56;
spec/43_matrix.md R258). -/

namespace Sys2Proof

@[simp] theorem Tile.elem_ofFn (f : Fin 4 → Fin 4 → Half) (r c : Fin 4) : (Tile.ofFn f).elem r c = f r c := by
  simp [Tile.ofFn, Tile.elem]

/-- A tile is given by its elements (R24). -/
theorem Tile.eq_of_elem {t u : Tile} (h : ∀ r c, t.elem r c = u.elem r c) : t = u := by
  apply Vector.ext
  intro i hi
  apply Vector.ext
  intro j hj
  exact h ⟨i, hi⟩ ⟨j, hj⟩

namespace Machine

/-- The number of a word in memory (R55). -/
theorem loadWord_toNat (mem : Memory) (a : Nat) : (mem.loadWord a).toNat = (mem.readByte a).toNat
    + (mem.readByte (a + 1)).toNat * 2 ^ 8 + (mem.readByte (a + 2)).toNat * 2 ^ 16
    + (mem.readByte (a + 3)).toNat * 2 ^ 24 := by
  unfold Memory.loadWord
  show BitVec.toNat (w := 8 + 8 + 8 + 8) _ = _
  simp only [append_toNat]
  omega

/-- The number of an element in memory (R258). -/
theorem loadHalf_toNat (mem : Memory) (a : Nat) :
    (mem.loadHalf a).toNat = (mem.readByte a).toNat + (mem.readByte (a + 1)).toNat * 2 ^ 8 := by
  unfold Memory.loadHalf
  show BitVec.toNat (w := 8 + 8) _ = _
  rw [append_toNat]
  omega

/-- A word in memory is two elements, the one at the lower address in bits 15..0 (R56). -/
theorem loadWord_halves (mem : Memory) (a : Nat) : mem.loadWord a = mem.loadHalf (a + 2) ++ mem.loadHalf a := by
  apply BitVec.eq_of_toNat_eq
  refine (loadWord_toNat mem a).trans (.trans ?_ (append_toNat (mem.loadHalf (a + 2)) (mem.loadHalf a)).symm)
  rw [loadHalf_toNat, loadHalf_toNat, show a + 2 + 1 = a + 3 from rfl]
  omega

/-- A word is its four bytes (R55). -/
theorem word_slices (v : Word) : v.extractLsb' 24 8 ++ v.extractLsb' 16 8 ++ v.extractLsb' 8 8 ++ v.extractLsb' 0 8
    = (v : BitVec (8 + 8 + 8 + 8)) := by
  apply BitVec.eq_of_toNat_eq
  simp only [append_toNat, extract_toNat]
  have := v.isLt
  omega

/-- An element is its two bytes (R258). -/
theorem half_slices (v : Half) : v.extractLsb' 8 8 ++ v.extractLsb' 0 8 = (v : BitVec (8 + 8)) := by
  apply BitVec.eq_of_toNat_eq
  simp only [append_toNat, extract_toNat]
  have := v.isLt
  omega

end Machine

end Sys2Proof
end

