-- ==== Sys2Proof/Laws/State.lean ====
section
/-! SUPPORT. What each register operation does to each field of the state. -/

namespace Sys2Proof.Machine

section fields

variable (s : State) (r : XReg) (q : MReg) (v : Word) (t : Tile)

@[simp] theorem writeX_m : (s.writeX r v).m = s.m := rfl
@[simp] theorem writeX_pc : (s.writeX r v).pc = s.pc := rfl
@[simp] theorem writeX_mem : (s.writeX r v).mem = s.mem := rfl
@[simp] theorem writeX_ctrl : (s.writeX r v).ctrl = s.ctrl := rfl
@[simp] theorem writeX_status : (s.writeX r v).status = s.status := rfl
@[simp] theorem writeX_params : (s.writeX r v).params = s.params := rfl

@[simp] theorem writeM_x : (s.writeM q t).x = s.x := rfl
@[simp] theorem writeM_pc : (s.writeM q t).pc = s.pc := rfl
@[simp] theorem writeM_mem : (s.writeM q t).mem = s.mem := rfl
@[simp] theorem writeM_ctrl : (s.writeM q t).ctrl = s.ctrl := rfl
@[simp] theorem writeM_status : (s.writeM q t).status = s.status := rfl
@[simp] theorem writeM_params : (s.writeM q t).params = s.params := rfl

@[simp] theorem setPc_x : (s.setPc v).x = s.x := rfl
@[simp] theorem setPc_m : (s.setPc v).m = s.m := rfl
@[simp] theorem setPc_pc : (s.setPc v).pc = v := rfl
@[simp] theorem setPc_mem : (s.setPc v).mem = s.mem := rfl
@[simp] theorem setPc_ctrl : (s.setPc v).ctrl = s.ctrl := rfl
@[simp] theorem setPc_status : (s.setPc v).status = s.status := rfl
@[simp] theorem setPc_params : (s.setPc v).params = s.params := rfl

@[simp] theorem advance_x : s.advance.x = s.x := rfl
@[simp] theorem advance_m : s.advance.m = s.m := rfl
@[simp] theorem advance_pc : s.advance.pc = s.pc + 4#32 := rfl
@[simp] theorem advance_mem : s.advance.mem = s.mem := rfl
@[simp] theorem advance_ctrl : s.advance.ctrl = s.ctrl := rfl
@[simp] theorem advance_status : s.advance.status = s.status := rfl
@[simp] theorem advance_params : s.advance.params = s.params := rfl

end fields

section reads

variable (s : State) (r r' : XReg) (q q' : MReg) (v : Word) (t : Tile)

@[simp] theorem readX_writeM : (s.writeM q t).readX r = s.readX r := rfl
@[simp] theorem readX_setPc : (s.setPc v).readX r = s.readX r := rfl
@[simp] theorem readX_advance : s.advance.readX r = s.readX r := rfl
@[simp] theorem readM_writeX : (s.writeX r v).readM q = s.readM q := rfl
@[simp] theorem readM_setPc : (s.setPc v).readM q = s.readM q := rfl
@[simp] theorem readM_advance : s.advance.readM q = s.readM q := rfl

/-- A register read after a write (x0 included, R21). -/
theorem readX_writeX : (s.writeX r v).readX r' = if r = r' then v else s.readX r' := by
  simp [State.readX, State.writeX, Vector.getElem_set, Fin.ext_iff]

@[simp] theorem readX_writeX_same : (s.writeX r v).readX r = v := by simp [readX_writeX]

theorem readX_writeX_other (h : r ≠ r') : (s.writeX r v).readX r' = s.readX r' := by simp [readX_writeX, h]

/-- A matrix register read after a write (m0 included, R24). -/
theorem readM_writeM : (s.writeM q t).readM q' = if q = q' then t else s.readM q' := by
  simp [State.readM, State.writeM, Vector.getElem_set, Fin.ext_iff]

@[simp] theorem readM_writeM_same : (s.writeM q t).readM q = t := by simp [readM_writeM]

theorem readM_writeM_other (h : q ≠ q') : (s.writeM q t).readM q' = s.readM q' := by simp [readM_writeM, h]

end reads

end Sys2Proof.Machine
end

