-- ==== Sys2Proof/Laws/Ops.lean ====
section
/-! SUPPORT. What the access checks, the fetch and the decode of a step can do, said once. -/

namespace Sys2Proof.Machine

/-- No fault is raised exactly when the access may proceed (R53, R54). -/
theorem accessFault_eq_none (s : State) (kind : AccessKind) (a : Word) (n : Nat) :
    s.accessFault kind a n = none ↔ s.accessible a n := by
  unfold State.accessFault State.accessible
  split_ifs <;> simp <;> omega

theorem accessFault_misaligned (s : State) (kind : AccessKind) (a : Word) (n : Nat) (h : a.toNat % 4 ≠ 0) :
    s.accessFault kind a n = some (.alignmentFault s.pc kind a) := by
  simp [State.accessFault, h]

theorem accessFault_outside (s : State) (kind : AccessKind) (a : Word) (n : Nat) (h : a.toNat % 4 = 0)
    (hb : s.mem.size < a.toNat + n) : s.accessFault kind a n = some (.boundsFault s.pc kind a n) := by
  simp [State.accessFault, h, hb]

/-- The fault an access raises is the alignment fault or, of an aligned address, the bounds fault. -/
theorem accessFault_cases {s : State} {kind : AccessKind} {a : Word} {n : Nat} {f : Fault}
    (h : s.accessFault kind a n = some f) :
    (f = .alignmentFault s.pc kind a ∧ a.toNat % 4 ≠ 0) ∨
    (f = .boundsFault s.pc kind a n ∧ a.toNat % 4 = 0 ∧ s.mem.size < a.toNat + n) := by
  unfold State.accessFault at h
  split_ifs at h with h1 h2
  · exact .inl ⟨(Option.some.inj h).symm, h1⟩
  · exact .inr ⟨(Option.some.inj h).symm, not_not.mp h1, h2⟩

theorem access_accessible {s : State} {kind : AccessKind} {a : Word} {n : Nat} (t : State)
    (h : s.accessible a n) : s.access kind a n t = .next t := by
  simp [State.access, (accessFault_eq_none s kind a n).mpr h]

theorem access_faults {s : State} {kind : AccessKind} {a : Word} {n : Nat} {f : Fault} (t : State)
    (h : s.accessFault kind a n = some f) : s.access kind a n t = .next { s with status := .faulted f } := by
  simp [State.access, h, State.takeFault]

/-- An access ends in the state it leads to, or in the fault its check raises. -/
theorem access_cases {s t u : State} {kind : AccessKind} {a : Word} {n : Nat} (h : s.access kind a n t = .next u) :
    (s.accessible a n ∧ u = t) ∨
    (∃ f, s.accessFault kind a n = some f ∧ u = { s with status := .faulted f }) := by
  cases hf : s.accessFault kind a n with
  | none =>
    have ha := (accessFault_eq_none s kind a n).mp hf
    rw [access_accessible t ha] at h
    exact .inl ⟨ha, (Host.Outcome.next.inj h).symm⟩
  | some f =>
    rw [access_faults t hf] at h
    exact .inr ⟨f, rfl, (Host.Outcome.next.inj h).symm⟩

theorem fetch_accessible {s : State} (h : s.accessible s.pc 4) : s.fetch = .ok (s.mem.loadWord s.pc.toNat) := by
  simp [State.fetch, (accessFault_eq_none s .fetch s.pc 4).mpr h]

/-- A fetch answers the word at an accessible pc, or the fault its check raises. -/
theorem fetch_cases (s : State) :
    (s.accessible s.pc 4 ∧ s.fetch = .ok (s.mem.loadWord s.pc.toNat)) ∨
    (∃ f, s.accessFault .fetch s.pc 4 = some f ∧ s.fetch = .error f) := by
  cases hf : s.accessFault .fetch s.pc 4 with
  | none =>
    have ha := (accessFault_eq_none s .fetch s.pc 4).mp hf
    exact .inl ⟨ha, fetch_accessible ha⟩
  | some f => exact .inr ⟨f, rfl, by simp [State.fetch, hf]⟩

/-- The front of a step: a fetch fault, a word without a meaning, or an instruction. -/
theorem fetchDecode_cases (s : State) :
    (∃ f, s.accessFault .fetch s.pc 4 = some f ∧ s.fetchDecode = .error f) ∨
    (∃ w r, s.fetch = .ok w ∧ decode w = .error r ∧ s.fetchDecode = .error (.decodeError s.pc w)) ∨
    (∃ w i, s.fetch = .ok w ∧ decode w = .ok i ∧ s.fetchDecode = .ok i) := by
  rcases fetch_cases s with ⟨_, hf⟩ | ⟨f, hc, hf⟩
  · cases hd : decode (s.mem.loadWord s.pc.toNat) with
    | error r => exact .inr (.inl ⟨_, r, hf, hd, by simp [State.fetchDecode, hf, hd]⟩)
    | ok i => exact .inr (.inr ⟨_, i, hf, hd, by simp [State.fetchDecode, hf, hd]⟩)
  · exact .inl ⟨f, hc, by simp [State.fetchDecode, hf]⟩

/-- Status does not matter to the front of a step. -/
@[simp] theorem fetch_withStatus (s : State) (st : Status) : ({ s with status := st } : State).fetch = s.fetch := rfl

@[simp] theorem fetchDecode_withStatus (s : State) (st : Status) :
    ({ s with status := st } : State).fetchDecode = s.fetchDecode := rfl

end Sys2Proof.Machine
end

