-- ==== Sys2Proof/Laws/Exec.lean ====
section
/-! SUPPORT. What executing an instruction and stepping can do, said once: the inversion lemmas that frames and
invariants are derived from. -/

namespace Sys2Proof.Machine

/-- The effect of an instruction whose access, if it makes one, may proceed and whose stride, if it has one, is 0: the
state it leads to. -/
def effect (i : Instr) (s : State) : State :=
  match i with
  | .add rd rs1 rs2 => (s.writeX rd (Alu.add (s.readX rs1) (s.readX rs2))).advance
  | .sub rd rs1 rs2 => (s.writeX rd (Alu.sub (s.readX rs1) (s.readX rs2))).advance
  | .xor rd rs1 rs2 => (s.writeX rd (Alu.xor (s.readX rs1) (s.readX rs2))).advance
  | .or rd rs1 rs2 => (s.writeX rd (Alu.or (s.readX rs1) (s.readX rs2))).advance
  | .and rd rs1 rs2 => (s.writeX rd (Alu.and (s.readX rs1) (s.readX rs2))).advance
  | .sll rd rs1 rs2 => (s.writeX rd (Alu.sll (s.readX rs1) (s.readX rs2))).advance
  | .srl rd rs1 rs2 => (s.writeX rd (Alu.srl (s.readX rs1) (s.readX rs2))).advance
  | .sra rd rs1 rs2 => (s.writeX rd (Alu.sra (s.readX rs1) (s.readX rs2))).advance
  | .slt rd rs1 rs2 => (s.writeX rd (Alu.slt (s.readX rs1) (s.readX rs2))).advance
  | .sltu rd rs1 rs2 => (s.writeX rd (Alu.sltu (s.readX rs1) (s.readX rs2))).advance
  | .mul rd rs1 rs2 => (s.writeX rd (Alu.mul (s.readX rs1) (s.readX rs2))).advance
  | .mov rd rs1 => (s.writeX rd (s.readX rs1)).advance
  | .addi rd rs1 imm => (s.writeX rd (Alu.add (s.readX rs1) (extend12 imm))).advance
  | .xori rd rs1 imm => (s.writeX rd (Alu.xor (s.readX rs1) (extend12 imm))).advance
  | .ori rd rs1 imm => (s.writeX rd (Alu.or (s.readX rs1) (extend12 imm))).advance
  | .andi rd rs1 imm => (s.writeX rd (Alu.and (s.readX rs1) (extend12 imm))).advance
  | .slli rd rs1 shamt => (s.writeX rd (Alu.sll (s.readX rs1) (shamtOperand shamt))).advance
  | .srli rd rs1 shamt => (s.writeX rd (Alu.srl (s.readX rs1) (shamtOperand shamt))).advance
  | .srai rd rs1 shamt => (s.writeX rd (Alu.sra (s.readX rs1) (shamtOperand shamt))).advance
  | .slti rd rs1 imm => (s.writeX rd (Alu.slt (s.readX rs1) (extend12 imm))).advance
  | .sltui rd rs1 imm => (s.writeX rd (Alu.sltu (s.readX rs1) (extend12 imm))).advance
  | .lui rd imm20 => (s.writeX rd (upperImmediate imm20)).advance
  | .lw rd rs1 imm => (s.writeX rd (s.mem.loadWord (wordAddress s rs1 imm).toNat)).advance
  | .sw rs2 rs1 imm => State.advance { s with mem := s.mem.storeWord (wordAddress s rs1 imm).toNat (s.readX rs2) }
  | .beq rs1 rs2 imm => if s.difference rs1 rs2 = 0 then s.setPc (s.pc + extend13 imm) else s.advance
  | .bne rs1 rs2 imm => if s.difference rs1 rs2 ≠ 0 then s.setPc (s.pc + extend13 imm) else s.advance
  | .blt rs1 rs2 imm => if s.difference rs1 rs2 < 0 then s.setPc (s.pc + extend13 imm) else s.advance
  | .bge rs1 rs2 imm => if s.difference rs1 rs2 ≥ 0 then s.setPc (s.pc + extend13 imm) else s.advance
  | .jal rd imm => (s.writeX rd (s.pc + 4#32)).setPc (s.pc + extend21 imm)
  | .jalr rd rs1 imm => (s.writeX rd (s.pc + 4#32)).setPc (jalrBase rd rs1 s + extend12 imm)
  | .gemm md ma mb mc => (s.writeM md (gemmFn (s.readM ma) (s.readM mb) (s.readM mc))).advance
  | .ldm md rs1 _ imm => (s.writeM md (s.mem.loadTile (tileAddress s rs1 imm).toNat)).advance
  | .stm md rs1 _ imm => State.advance { s with mem := s.mem.storeTile (tileAddress s rs1 imm).toNat (s.readM md) }
  | .halt => { s with status := .halted }

/-- A strided tile access is refused, before its address is looked at (R262, R309). -/
theorem exec_strided {i : Instr} (s : State) (h : i.strided = true) :
    exec i s = .next { s with status := .refused .strideUnmodelled s.pc } := by
  cases i <;> simp_all [Instr.strided, exec, execLdm, execStm, State.refuse]

/-- An instruction that makes no data access, or one that may proceed, has its effect. -/
theorem exec_effect {i : Instr} {s : State} (h : i.strided = false)
    (ha : ∀ acc, dataAccess i s = some acc → s.accessible acc.addr acc.size) : exec i s = .next (effect i s) := by
  cases i with
  | lw rd rs1 imm => exact access_accessible _ (ha _ rfl)
  | sw rs2 rs1 imm => exact access_accessible _ (ha _ rfl)
  | ldm md rs1 stride imm =>
    have : stride = 0#5 := by simpa [Instr.strided] using h
    simp only [exec, execLdm, this, ne_eq, not_true_eq_false, if_false]
    exact access_accessible _ (ha _ rfl)
  | stm md rs1 stride imm =>
    have : stride = 0#5 := by simpa [Instr.strided] using h
    simp only [exec, execStm, this, ne_eq, not_true_eq_false, if_false]
    exact access_accessible _ (ha _ rfl)
  | beq rs1 rs2 imm => simp [exec, execBeq, branch, effect]
  | bne rs1 rs2 imm => simp [exec, execBne, branch, effect]
  | blt rs1 rs2 imm => simp [exec, execBlt, branch, effect]
  | bge rs1 rs2 imm => simp [exec, execBge, branch, effect]
  | _ => rfl

/-- A data access that may not proceed faults. -/
theorem exec_faults {i : Instr} {s : State} {acc : DataAccess} {f : Fault} (h : i.strided = false)
    (ha : dataAccess i s = some acc) (hf : s.accessFault acc.kind acc.addr acc.size = some f) :
    exec i s = .next { s with status := .faulted f } := by
  cases i with
  | lw rd rs1 imm => cases ha; exact access_faults _ hf
  | sw rs2 rs1 imm => cases ha; exact access_faults _ hf
  | ldm md rs1 stride imm =>
    have : stride = 0#5 := by simpa [Instr.strided] using h
    cases ha
    simp only [exec, execLdm, this, ne_eq, not_true_eq_false, if_false]
    exact access_faults _ hf
  | stm md rs1 stride imm =>
    have : stride = 0#5 := by simpa [Instr.strided] using h
    cases ha
    simp only [exec, execStm, this, ne_eq, not_true_eq_false, if_false]
    exact access_faults _ hf
  | _ => cases ha

/-- The three ways an instruction ends. -/
inductive Ends (i : Instr) (s : State) : State → Prop where
  | refused (h : i.strided = true) : Ends i s { s with status := .refused .strideUnmodelled s.pc }
  | faulted (h : i.strided = false) (acc : DataAccess) (ha : dataAccess i s = some acc) (f : Fault)
      (hf : s.accessFault acc.kind acc.addr acc.size = some f) : Ends i s { s with status := .faulted f }
  | done (h : i.strided = false) (ha : ∀ acc, dataAccess i s = some acc → s.accessible acc.addr acc.size) :
      Ends i s (effect i s)

/-- Executing an instruction always answers a next state, and it is one of the three. -/
theorem exec_ends (i : Instr) (s : State) : ∃ t, exec i s = .next t ∧ Ends i s t := by
  cases h : i.strided with
  | true => exact ⟨_, exec_strided s h, .refused h⟩
  | false =>
    cases ha : dataAccess i s with
    | none =>
      have hn : ∀ acc, dataAccess i s = some acc → s.accessible acc.addr acc.size := by simp [ha]
      exact ⟨_, exec_effect h hn, .done h hn⟩
    | some acc =>
      cases hf : s.accessFault acc.kind acc.addr acc.size with
      | none =>
        have hn : ∀ acc, dataAccess i s = some acc → s.accessible acc.addr acc.size := by
          intro acc' h'
          rw [ha] at h'
          cases h'
          exact (accessFault_eq_none _ _ _ _).mp hf
        exact ⟨_, exec_effect h hn, .done h hn⟩
      | some f => exact ⟨_, exec_faults h ha hf, .faulted h acc ha f hf⟩

theorem exec_cases {i : Instr} {s t : State} (h : exec i s = .next t) : Ends i s t := by
  obtain ⟨u, hu, he⟩ := exec_ends i s
  rw [hu] at h
  cases h
  exact he

/-! ## The fields an effect leaves alone -/

@[simp] theorem effect_ctrl (i : Instr) (s : State) : (effect i s).ctrl = s.ctrl := by
  cases i with
  | beq | bne | blt | bge => simp only [effect]; split <;> rfl
  | _ => rfl

@[simp] theorem effect_params (i : Instr) (s : State) : (effect i s).params = s.params := by
  cases i with
  | beq | bne | blt | bge => simp only [effect]; split <;> rfl
  | _ => rfl

@[simp] theorem effect_memSize (i : Instr) (s : State) : (effect i s).mem.size = s.mem.size := by
  cases i with
  | beq | bne | blt | bge => simp only [effect]; split <;> rfl
  | sw rs2 rs1 imm => exact storeWord_size _ _ _
  | stm md rs1 stride imm => exact storeTile_size _ _ _
  | _ => rfl

theorem effect_status (i : Instr) (s : State) :
    (effect i s).status = if i = .halt then .halted else s.status := by
  cases i with
  | beq | bne | blt | bge => simp only [effect, reduceCtorEq, if_false]; split <;> rfl
  | halt => rfl
  | _ => rw [if_neg (by simp)]; rfl

theorem effect_readX (i : Instr) (s : State) (r : XReg) (h : i.xDest ≠ some r) :
    (effect i s).readX r = s.readX r := by
  cases i with
  | beq | bne | blt | bge => simp only [effect]; split <;> rfl
  | sw | gemm | ldm | stm | halt => rfl
  | _ => simp only [Instr.xDest, ne_eq, Option.some.injEq] at h; exact readX_writeX_other _ _ _ _ h

theorem effect_readM (i : Instr) (s : State) (q : MReg) (h : i.mDest ≠ some q) :
    (effect i s).readM q = s.readM q := by
  cases i with
  | beq | bne | blt | bge => simp only [effect]; split <;> rfl
  | gemm | ldm => simp only [Instr.mDest, ne_eq, Option.some.injEq] at h; exact readM_writeM_other _ _ _ _ h
  | _ => rfl

theorem effect_readByte (i : Instr) (s : State) (a : Nat) (h : ¬ storesTo i s a) :
    (effect i s).readByte a = s.readByte a := by
  cases i with
  | sw rs2 rs1 imm => exact readByte_storeWord_outside _ _ _ _ (by simp only [storesTo] at h; omega)
  | stm md rs1 stride imm => exact readByte_storeTile_outside _ _ _ _ (by simp only [storesTo] at h; omega)
  | beq | bne | blt | bge => simp only [effect]; split <;> rfl
  | _ => rfl

theorem effect_wf (i : Instr) (s : State) (h : s.mem.wf)
    (ha : ∀ acc, dataAccess i s = some acc → s.accessible acc.addr acc.size) : (effect i s).mem.wf := by
  cases i with
  | sw rs2 rs1 imm => exact storeWord_wf _ _ _ h (ha _ rfl).2
  | stm md rs1 stride imm => exact storeTile_wf _ _ _ h (ha _ rfl).2
  | beq | bne | blt | bge => simp only [effect]; split <;> exact h
  | _ => exact h

/-! ## Stepping -/

theorem step_running {s : State} (h : s.status = .running) : step s = cycle s := by simp [step, h]

/-- The ways a Running Core's step ends: a fetch fault, a word without a meaning, or an executed instruction. -/
theorem step_cases {s : State} (h : s.status = .running) :
    (∃ f, s.accessFault .fetch s.pc 4 = some f ∧ step s = .next { s with status := .faulted f }) ∨
    (∃ w r, s.fetch = .ok w ∧ decode w = .error r ∧
      step s = .next { s with status := .faulted (.decodeError s.pc w) }) ∨
    (∃ w i, s.fetch = .ok w ∧ decode w = .ok i ∧ s.fetchDecode = .ok i ∧ step s = exec i s) := by
  rw [step_running h, cycle]
  rcases fetchDecode_cases s with ⟨f, hc, hf⟩ | ⟨w, r, hw, hd, hf⟩ | ⟨w, i, hw, hd, hf⟩
  · exact .inl ⟨f, hc, by rw [hf]; rfl⟩
  · exact .inr (.inl ⟨w, r, hw, hd, by rw [hf]; rfl⟩)
  · exact .inr (.inr ⟨w, i, hw, hd, hf, by rw [hf]⟩)

end Sys2Proof.Machine
end

