-- ==== Sys2Proof/Laws/Half.lean ====
section
/-! SUPPORT. binary16 patterns and their exact values: every finite pattern is the pattern of its value, and a value
with a pattern has that pattern's value (spec/10_state.md R25). -/

namespace Sys2Proof.Machine

namespace Half

variable (s : BitVec 1) (e : BitVec 5) (f : BitVec 10)

theorem exponent_parts : exponent (s ++ (e ++ f)) = e := by
  apply BitVec.eq_of_toNat_eq
  refine (extract_toNat (n := 1 + (5 + 10)) _ 10 5).trans ?_
  rw [append_toNat, append_toNat]
  have := e.isLt
  have := f.isLt
  omega

theorem fraction_parts : fraction (s ++ (e ++ f)) = f := by
  apply BitVec.eq_of_toNat_eq
  refine (extract_toNat (n := 1 + (5 + 10)) _ 0 10).trans ?_
  rw [append_toNat, append_toNat]
  have := f.isLt
  omega

theorem signBit_append (bits : BitVec 15) : signBit (s ++ bits) = s.getLsbD 0 := by
  unfold signBit
  refine (BitVec.getLsbD_append (x := s) (y := bits)).trans ?_
  simp

/-- The two parts of an exponent-and-fraction field. -/
theorem bits_parts (bits : BitVec 15) : (bits.extractLsb' 10 5 ++ bits.extractLsb' 0 10 : BitVec (5 + 10)) = bits := by
  apply BitVec.eq_of_toNat_eq
  rw [append_toNat, extract_toNat, extract_toNat]
  have := bits.isLt
  omega

/-- A magnitude that has a pattern is the magnitude of that pattern, which is finite. -/
theorem ofMagnitude?_sound {n : Nat} {bits : BitVec 15} (h : ofMagnitude? n = some bits) :
    finite (s ++ bits) = true ∧ magnitude (s ++ bits) = n := by
  unfold ofMagnitude? at h
  split_ifs at h with h1
  · have hb : bits = 0#5 ++ BitVec.ofNat 10 n := by
      cases h
      apply BitVec.eq_of_toNat_eq
      refine .trans ?_ (append_toNat (0#5) (BitVec.ofNat 10 n)).symm
      simp only [BitVec.toNat_ofNat]
      omega
    rw [hb]
    refine ⟨by rw [finite, exponent_parts]; decide, ?_⟩
    rw [magnitude, exponent_parts, fraction_parts, if_pos rfl, BitVec.toNat_ofNat, Nat.mod_eq_of_lt (by omega)]
  · simp only [Option.ite_none_right_eq_some, Option.some.injEq] at h
    obtain ⟨⟨hk, hd⟩, hb⟩ := h
    have hn : 2 ^ n.log2 ≤ n := Nat.log2_self_le (by omega)
    have hn' : n < 2 ^ (n.log2 + 1) := Nat.lt_log2_self
    have hl : 10 ≤ n.log2 := (Nat.le_log2 (by omega)).mpr (by omega)
    generalize hkk : n.log2 - 10 = k at hk hd hb
    have hlk : n.log2 = k + 10 := by omega
    rw [hlk] at hn hn'
    have hq := Nat.div_add_mod n (2 ^ k)
    rw [hd, Nat.add_zero] at hq
    generalize n / 2 ^ k = q at hq hb
    have hp : 0 < 2 ^ k := by positivity
    have hq1 : 1024 ≤ q := by
      have : 2 ^ k * 1024 ≤ 2 ^ k * q := by rw [hq]; rw [pow_add] at hn; simpa using hn
      exact Nat.le_of_mul_le_mul_left this hp
    have hq2 : q < 2048 := by
      have : 2 ^ k * q < 2 ^ k * 2048 := by
        rw [hq]; rw [show k + 10 + 1 = k + 11 by rfl, pow_add] at hn'; simpa using hn'
      exact Nat.lt_of_mul_lt_mul_left this
    rw [← hb]
    have he : (BitVec.ofNat 5 (k + 1)).toNat = k + 1 := by rw [BitVec.toNat_ofNat, Nat.mod_eq_of_lt (by omega)]
    refine ⟨?_, ?_⟩
    · rw [finite, exponent_parts, bne_iff_ne, ne_eq, BitVec.toNat_eq, he]
      simp
      omega
    · rw [magnitude, exponent_parts, fraction_parts, if_neg (by rw [BitVec.toNat_eq, he]; simp), he,
        BitVec.toNat_ofNat, Nat.mod_eq_of_lt (by omega), ← hq, Nat.add_sub_cancel, Nat.mul_comm,
        show 1024 + (q - 1024) = q by omega]

/-- The magnitude of a finite pattern has a pattern, the pattern's own. -/
theorem ofMagnitude?_complete (bits : BitVec 15) (h : finite (s ++ bits) = true) :
    ofMagnitude? (magnitude (s ++ bits)) = some bits := by
  rw [← bits_parts bits] at h ⊢
  generalize bits.extractLsb' 10 5 = e at h ⊢
  generalize bits.extractLsb' 0 10 = f at h ⊢
  rw [finite, exponent_parts, bne_iff_ne] at h
  have hf := f.isLt
  have he := e.isLt
  have h31 : e.toNat ≠ 31 := fun k => h (BitVec.eq_of_toNat_eq (by rw [k]; rfl))
  rw [magnitude, exponent_parts, fraction_parts]
  by_cases h0 : e = 0#5
  · rw [if_pos h0, ofMagnitude?, if_pos (by omega), h0]
    congr 1
    apply BitVec.eq_of_toNat_eq
    refine .trans ?_ (append_toNat (0#5) f).symm
    simp
    omega
  · have hz : e.toNat ≠ 0 := fun k => h0 (BitVec.eq_of_toNat_eq (by rw [k]; rfl))
    obtain ⟨k, hk⟩ : ∃ k, e.toNat = k + 1 := ⟨e.toNat - 1, by omega⟩
    rw [if_neg h0, hk, Nat.add_sub_cancel]
    have hp : 0 < 2 ^ k := by positivity
    have hl : ((1024 + f.toNat) * 2 ^ k).log2 = k + 10 := by
      rw [Nat.log2_eq_iff (by positivity)]
      constructor
      · rw [pow_add]; nlinarith
      · rw [show k + 10 + 1 = k + 11 by rfl, pow_add]; nlinarith
    have hge : ¬ (1024 + f.toNat) * 2 ^ k < 1024 := by nlinarith
    rw [ofMagnitude?, if_neg hge, hl, Nat.add_sub_cancel]
    simp only [Nat.mul_mod_left, and_true]
    rw [if_pos (by omega), Nat.mul_div_cancel _ hp, Nat.add_sub_cancel_left, ← hk]
    simp

/-! ## Values -/

theorem sign_bits (h : Half) : (BitVec.ofBool (signBit h) ++ h.extractLsb' 0 15 : BitVec (1 + 15)) = h := by
  apply BitVec.eq_of_toNat_eq
  have := h.isLt
  rw [append_toNat, extract_toNat, BitVec.toNat_ofBool, signBit, BitVec.getLsbD, Nat.testBit_eq_decide_div_mod_eq]
  by_cases k : h.toNat / 2 ^ 15 % 2 = 1
  · rw [decide_eq_true k, Bool.toNat_true]; omega
  · rw [decide_eq_false k, Bool.toNat_false]; omega

/-- A value's pattern is finite and has the value, whichever sign a zero is given. -/
theorem exactBits?_sound {v : Int} {bits : BitVec 15} (h : exactBits? v = some bits) (sign : Bool)
    (hs : v ≠ 0 → sign = decide (v < 0)) :
    finite (BitVec.ofBool sign ++ bits) = true ∧ units (BitVec.ofBool sign ++ bits) * 2 ^ 24 = v := by
  unfold exactBits? at h
  simp only [Option.ite_none_right_eq_some] at h
  obtain ⟨hd, hm⟩ := h
  obtain ⟨hf, hn⟩ := ofMagnitude?_sound (BitVec.ofBool sign) hm
  refine ⟨hf, ?_⟩
  have hsb : signBit (BitVec.ofBool sign ++ bits) = sign := by rw [signBit_append]; cases sign <;> rfl
  rw [units, hn, hsb]
  by_cases h0 : v = 0
  · subst h0; simp
  · rw [hs h0]
    by_cases hlt : v < 0 <;> simp only [hlt, decide_true, decide_false, if_true, if_false, Bool.false_eq_true] <;> omega

/-- The value of a finite pattern has a pattern, and but for the sign of a zero it is that one. -/
theorem exactBits?_complete {h : Half} (hf : finite h = true) :
    exactBits? (units h * 2 ^ 24) = some (h.extractLsb' 0 15) ∧
    (units h ≠ 0 → signBit h = decide (units h < 0)) := by
  have hm := ofMagnitude?_complete (BitVec.ofBool (signBit h)) (h.extractLsb' 0 15) (by rw [sign_bits]; exact hf)
  have e : (BitVec.ofBool (signBit h) ++ h.extractLsb' 0 15 : BitVec (1 + 15)) = h := sign_bits h
  rw [e] at hm
  have ha : (units h * 2 ^ 24).natAbs = magnitude h * 2 ^ 24 := by
    rw [units]; split <;> omega
  refine ⟨by rw [exactBits?, ha, if_pos (by omega), Nat.mul_div_cancel _ (by positivity), hm], fun h0 => ?_⟩
  rw [units] at h0 ⊢
  cases signBit h <;> simp at h0 ⊢; omega

/-- A value is representable exactly when a finite pattern has it. -/
theorem representable_iff (v : Int) : representable v = true ↔ ∃ h, finite h = true ∧ units h * 2 ^ 24 = v := by
  constructor
  · intro h
    obtain ⟨bits, hb⟩ := Option.isSome_iff_exists.mp h
    exact ⟨_, exactBits?_sound hb (decide (v < 0)) fun _ => rfl⟩
  · rintro ⟨h, hf, rfl⟩
    exact Option.isSome_iff_exists.mpr ⟨_, (exactBits?_complete hf).1⟩

end Half

/-! ## Partial sums -/

/-- The partial sums of a list are the sums of its nonempty parts. -/
theorem mem_partialSums (l : List Int) (v : Int) :
    v ∈ Gemm.partialSums l ↔ ∃ part, part.Sublist l ∧ part ≠ [] ∧ part.sum = v := by
  induction l generalizing v with
  | nil => simp [Gemm.partialSums]
  | cons a rest ih =>
    simp only [Gemm.partialSums, List.mem_cons, List.mem_append, List.mem_map, ih]
    constructor
    · rintro (rfl | ⟨p, hp, hn, hs⟩ | ⟨u, ⟨p, hp, hn, hs⟩, rfl⟩)
      · exact ⟨[v], by simp, by simp, by simp⟩
      · exact ⟨p, hp.cons a, hn, hs⟩
      · exact ⟨a :: p, hp.cons_cons a, by simp, by simp [hs]⟩
    · rintro ⟨p, hp, hn, hs⟩
      cases hp with
      | cons _ hp => exact .inr (.inl ⟨p, hp, hn, hs⟩)
      | @cons_cons q _ _ hp =>
        by_cases hq : q = []
        · subst hq; simp at hs; exact .inl hs.symm
        · exact .inr (.inr ⟨q.sum, ⟨q, hp, hq, rfl⟩, by simpa using hs⟩)

end Sys2Proof.Machine
end

