-- ==== Sys2Proof/Laws/PerInstr.lean ====
section
/-! SUPPORT. For each instruction: the opcode table has a row of its mnemonic, and the instruction's word has the row's
fixed bits (spec/opcode_table.json). -/

namespace Sys2Proof.Laws.FixedBits

/-- Some row of the opcode table has the instruction's mnemonic and matches its word. -/
def Statement (i : Instr) : Prop :=
  ∃ row ∈ opcodeTable, row.mnemonic = i.mnemonic ∧ row.matchesWord (encode i) = true

/-! ## The fixed bits of each format -/

section formats

variable (f7 opc : BitVec 7) (f3 : BitVec 3) (rd rs1 rs2 : XReg)

theorem r_fixed :
    Format.r f7 rs2 rs1 f3 rd opc &&& 0xFE00707F = f7 ++ 0#5 ++ 0#5 ++ f3 ++ 0#5 ++ opc := by
  have hm : (0xFE00707F : BitVec (7 + 5 + 5 + 3 + 5 + 7)) =
      BitVec.allOnes 7 ++ 0#5 ++ 0#5 ++ BitVec.allOnes 3 ++ 0#5 ++ BitVec.allOnes 7 := by decide
  unfold Format.r
  refine (congrArg (HAnd.hAnd (α := BitVec (7 + 5 + 5 + 3 + 5 + 7)) _) hm).trans ?_
  simp only [BitVec.and_append, BitVec.and_allOnes, BitVec.and_zero]

theorem mov_fixed :
    Format.r f7 0 rs1 f3 rd opc &&& 0xFFF0707F = f7 ++ 0#5 ++ 0#5 ++ f3 ++ 0#5 ++ opc := by
  have hm : (0xFFF0707F : BitVec (7 + 5 + 5 + 3 + 5 + 7)) =
      BitVec.allOnes 7 ++ BitVec.allOnes 5 ++ 0#5 ++ BitVec.allOnes 3 ++ 0#5 ++ BitVec.allOnes 7 := by decide
  unfold Format.r
  refine (congrArg (HAnd.hAnd (α := BitVec (7 + 5 + 5 + 3 + 5 + 7)) _) hm).trans ?_
  simp only [BitVec.and_append, BitVec.and_allOnes, BitVec.and_zero]
  rfl

theorem i_fixed (imm : BitVec 12) :
    Format.i imm rs1 f3 rd opc &&& 0x0000707F = 0#12 ++ 0#5 ++ f3 ++ 0#5 ++ opc := by
  have hm : (0x0000707F : BitVec (12 + 5 + 3 + 5 + 7)) =
      0#12 ++ 0#5 ++ BitVec.allOnes 3 ++ 0#5 ++ BitVec.allOnes 7 := by decide
  unfold Format.i
  refine (congrArg (HAnd.hAnd (α := BitVec (12 + 5 + 3 + 5 + 7)) _) hm).trans ?_
  simp only [BitVec.and_append, BitVec.and_allOnes, BitVec.and_zero]

theorem shift_fixed (shamt : BitVec 5) :
    Format.i (f7 ++ shamt) rs1 f3 rd opc &&& 0xFE00707F = (f7 ++ 0#5 : BitVec (7 + 5)) ++ 0#5 ++ f3 ++ 0#5 ++ opc := by
  have hm : (0xFE00707F : BitVec ((7 + 5) + 5 + 3 + 5 + 7)) =
      (BitVec.allOnes 7 ++ 0#5 : BitVec (7 + 5)) ++ 0#5 ++ BitVec.allOnes 3 ++ 0#5 ++ BitVec.allOnes 7 := by decide
  unfold Format.i
  refine (congrArg (HAnd.hAnd (α := BitVec ((7 + 5) + 5 + 3 + 5 + 7)) _) hm).trans ?_
  simp only [BitVec.and_append, BitVec.and_allOnes, BitVec.and_zero]

theorem s_fixed (imm : BitVec 12) :
    Format.s imm rs2 rs1 f3 opc &&& 0x0000707F = 0#7 ++ 0#5 ++ 0#5 ++ f3 ++ 0#5 ++ opc := by
  have hm : (0x0000707F : BitVec (7 + 5 + 5 + 3 + 5 + 7)) =
      0#7 ++ 0#5 ++ 0#5 ++ BitVec.allOnes 3 ++ 0#5 ++ BitVec.allOnes 7 := by decide
  unfold Format.s
  refine (congrArg (HAnd.hAnd (α := BitVec (7 + 5 + 5 + 3 + 5 + 7)) _) hm).trans ?_
  simp only [BitVec.and_append, BitVec.and_allOnes, BitVec.and_zero]

theorem b_fixed (imm : BitVec 13) :
    Format.b imm rs2 rs1 f3 opc &&& 0x0000707F = 0#1 ++ 0#6 ++ 0#5 ++ 0#5 ++ f3 ++ 0#4 ++ 0#1 ++ opc := by
  have hm : (0x0000707F : BitVec (1 + 6 + 5 + 5 + 3 + 4 + 1 + 7)) =
      0#1 ++ 0#6 ++ 0#5 ++ 0#5 ++ BitVec.allOnes 3 ++ 0#4 ++ 0#1 ++ BitVec.allOnes 7 := by decide
  unfold Format.b
  refine (congrArg (HAnd.hAnd (α := BitVec (1 + 6 + 5 + 5 + 3 + 4 + 1 + 7)) _) hm).trans ?_
  simp only [BitVec.and_append, BitVec.and_allOnes, BitVec.and_zero]

theorem u_fixed (imm20 : BitVec 20) :
    Format.u imm20 rd opc &&& 0x0000007F = 0#20 ++ 0#5 ++ opc := by
  have hm : (0x0000007F : BitVec (20 + 5 + 7)) = 0#20 ++ 0#5 ++ BitVec.allOnes 7 := by decide
  unfold Format.u
  refine (congrArg (HAnd.hAnd (α := BitVec (20 + 5 + 7)) _) hm).trans ?_
  simp only [BitVec.and_append, BitVec.and_allOnes, BitVec.and_zero]

theorem j_fixed (imm : BitVec 21) :
    Format.j imm rd opc &&& 0x0000007F = 0#1 ++ 0#10 ++ 0#1 ++ 0#8 ++ 0#5 ++ opc := by
  have hm : (0x0000007F : BitVec (1 + 10 + 1 + 8 + 5 + 7)) =
      0#1 ++ 0#10 ++ 0#1 ++ 0#8 ++ 0#5 ++ BitVec.allOnes 7 := by decide
  unfold Format.j
  refine (congrArg (HAnd.hAnd (α := BitVec (1 + 10 + 1 + 8 + 5 + 7)) _) hm).trans ?_
  simp only [BitVec.and_append, BitVec.and_allOnes, BitVec.and_zero]

theorem matrixAlu_fixed (mc mb ma md : MReg) :
    Format.matrixAlu mc mb ma md opc &&& 0xFF80007F = 0#9 ++ 0#4 ++ 0#4 ++ 0#4 ++ 0#4 ++ opc := by
  have hm : (0xFF80007F : BitVec (9 + 4 + 4 + 4 + 4 + 7)) =
      BitVec.allOnes 9 ++ 0#4 ++ 0#4 ++ 0#4 ++ 0#4 ++ BitVec.allOnes 7 := by decide
  unfold Format.matrixAlu
  refine (congrArg (HAnd.hAnd (α := BitVec (9 + 4 + 4 + 4 + 4 + 7)) _) hm).trans ?_
  simp only [BitVec.and_append, BitVec.and_allOnes, BitVec.and_zero]

theorem matrixMem_fixed (imm : BitVec 11) (stride : BitVec 5) (md : MReg) :
    Format.matrixMem imm stride rs1 md opc &&& 0x0000007F = 0#11 ++ 0#5 ++ 0#5 ++ 0#4 ++ opc := by
  have hm : (0x0000007F : BitVec (11 + 5 + 5 + 4 + 7)) = 0#11 ++ 0#5 ++ 0#5 ++ 0#4 ++ BitVec.allOnes 7 := by decide
  unfold Format.matrixMem
  refine (congrArg (HAnd.hAnd (α := BitVec (11 + 5 + 5 + 4 + 7)) _) hm).trans ?_
  simp only [BitVec.and_append, BitVec.and_allOnes, BitVec.and_zero]

end formats

/-- A row of the table whose pattern the word's fixed bits are. -/
theorem of_row {i : Instr} (row : OpcodeRow) (hm : row ∈ opcodeTable) (hn : row.mnemonic = i.mnemonic)
    {fixed : Word} (hw : encode i &&& row.mask = fixed) (hp : fixed = row.pattern) : Statement i :=
  ⟨row, hm, hn, beq_iff_eq.mpr (hw.trans hp)⟩

/-! ## One lemma for each constructor -/

theorem add (rd rs1 rs2 : XReg) : Statement (.add rd rs1 rs2) :=
  of_row ⟨"add", 0x00000033, 0xFE00707F⟩ (by decide) rfl (r_fixed _ _ _ _ _ _) (by decide)

theorem sub (rd rs1 rs2 : XReg) : Statement (.sub rd rs1 rs2) :=
  of_row ⟨"sub", 0x40000033, 0xFE00707F⟩ (by decide) rfl (r_fixed _ _ _ _ _ _) (by decide)

theorem xor (rd rs1 rs2 : XReg) : Statement (.xor rd rs1 rs2) :=
  of_row ⟨"xor", 0x00004033, 0xFE00707F⟩ (by decide) rfl (r_fixed _ _ _ _ _ _) (by decide)

theorem or (rd rs1 rs2 : XReg) : Statement (.or rd rs1 rs2) :=
  of_row ⟨"or", 0x00006033, 0xFE00707F⟩ (by decide) rfl (r_fixed _ _ _ _ _ _) (by decide)

theorem and (rd rs1 rs2 : XReg) : Statement (.and rd rs1 rs2) :=
  of_row ⟨"and", 0x00007033, 0xFE00707F⟩ (by decide) rfl (r_fixed _ _ _ _ _ _) (by decide)

theorem sll (rd rs1 rs2 : XReg) : Statement (.sll rd rs1 rs2) :=
  of_row ⟨"sll", 0x00001033, 0xFE00707F⟩ (by decide) rfl (r_fixed _ _ _ _ _ _) (by decide)

theorem srl (rd rs1 rs2 : XReg) : Statement (.srl rd rs1 rs2) :=
  of_row ⟨"srl", 0x00005033, 0xFE00707F⟩ (by decide) rfl (r_fixed _ _ _ _ _ _) (by decide)

theorem sra (rd rs1 rs2 : XReg) : Statement (.sra rd rs1 rs2) :=
  of_row ⟨"sra", 0x40005033, 0xFE00707F⟩ (by decide) rfl (r_fixed _ _ _ _ _ _) (by decide)

theorem slt (rd rs1 rs2 : XReg) : Statement (.slt rd rs1 rs2) :=
  of_row ⟨"slt", 0x00002033, 0xFE00707F⟩ (by decide) rfl (r_fixed _ _ _ _ _ _) (by decide)

theorem sltu (rd rs1 rs2 : XReg) : Statement (.sltu rd rs1 rs2) :=
  of_row ⟨"sltu", 0x00003033, 0xFE00707F⟩ (by decide) rfl (r_fixed _ _ _ _ _ _) (by decide)

theorem mul (rd rs1 rs2 : XReg) : Statement (.mul rd rs1 rs2) :=
  of_row ⟨"mul", 0x02000033, 0xFE00707F⟩ (by decide) rfl (r_fixed _ _ _ _ _ _) (by decide)

theorem mov (rd rs1 : XReg) : Statement (.mov rd rs1) :=
  of_row ⟨"mov", 0x04000033, 0xFFF0707F⟩ (by decide) rfl (mov_fixed _ _ _ _ _) (by decide)

theorem addi (rd rs1 : XReg) (imm : BitVec 12) : Statement (.addi rd rs1 imm) :=
  of_row ⟨"addi", 0x00000013, 0x0000707F⟩ (by decide) rfl (i_fixed _ _ _ _ _) (by decide)

theorem xori (rd rs1 : XReg) (imm : BitVec 12) : Statement (.xori rd rs1 imm) :=
  of_row ⟨"xori", 0x00004013, 0x0000707F⟩ (by decide) rfl (i_fixed _ _ _ _ _) (by decide)

theorem ori (rd rs1 : XReg) (imm : BitVec 12) : Statement (.ori rd rs1 imm) :=
  of_row ⟨"ori", 0x00006013, 0x0000707F⟩ (by decide) rfl (i_fixed _ _ _ _ _) (by decide)

theorem andi (rd rs1 : XReg) (imm : BitVec 12) : Statement (.andi rd rs1 imm) :=
  of_row ⟨"andi", 0x00007013, 0x0000707F⟩ (by decide) rfl (i_fixed _ _ _ _ _) (by decide)

theorem slli (rd rs1 : XReg) (shamt : BitVec 5) : Statement (.slli rd rs1 shamt) :=
  of_row ⟨"slli", 0x00001013, 0xFE00707F⟩ (by decide) rfl (shift_fixed _ _ _ _ _ _) (by decide)

theorem srli (rd rs1 : XReg) (shamt : BitVec 5) : Statement (.srli rd rs1 shamt) :=
  of_row ⟨"srli", 0x00005013, 0xFE00707F⟩ (by decide) rfl (shift_fixed _ _ _ _ _ _) (by decide)

theorem srai (rd rs1 : XReg) (shamt : BitVec 5) : Statement (.srai rd rs1 shamt) :=
  of_row ⟨"srai", 0x40005013, 0xFE00707F⟩ (by decide) rfl (shift_fixed _ _ _ _ _ _) (by decide)

theorem slti (rd rs1 : XReg) (imm : BitVec 12) : Statement (.slti rd rs1 imm) :=
  of_row ⟨"slti", 0x00002013, 0x0000707F⟩ (by decide) rfl (i_fixed _ _ _ _ _) (by decide)

theorem sltui (rd rs1 : XReg) (imm : BitVec 12) : Statement (.sltui rd rs1 imm) :=
  of_row ⟨"sltui", 0x00003013, 0x0000707F⟩ (by decide) rfl (i_fixed _ _ _ _ _) (by decide)

theorem lui (rd : XReg) (imm20 : BitVec 20) : Statement (.lui rd imm20) :=
  of_row ⟨"lui", 0x00000037, 0x0000007F⟩ (by decide) rfl (u_fixed _ _ _) (by decide)

theorem lw (rd rs1 : XReg) (imm : BitVec 12) : Statement (.lw rd rs1 imm) :=
  of_row ⟨"lw", 0x00002003, 0x0000707F⟩ (by decide) rfl (i_fixed _ _ _ _ _) (by decide)

theorem sw (rs2 rs1 : XReg) (imm : BitVec 12) : Statement (.sw rs2 rs1 imm) :=
  of_row ⟨"sw", 0x00002023, 0x0000707F⟩ (by decide) rfl (s_fixed _ _ _ _ _) (by decide)

theorem beq (rs1 rs2 : XReg) (imm : BitVec 13) : Statement (.beq rs1 rs2 imm) :=
  of_row ⟨"beq", 0x00000063, 0x0000707F⟩ (by decide) rfl (b_fixed _ _ _ _ _) (by decide)

theorem bne (rs1 rs2 : XReg) (imm : BitVec 13) : Statement (.bne rs1 rs2 imm) :=
  of_row ⟨"bne", 0x00001063, 0x0000707F⟩ (by decide) rfl (b_fixed _ _ _ _ _) (by decide)

theorem blt (rs1 rs2 : XReg) (imm : BitVec 13) : Statement (.blt rs1 rs2 imm) :=
  of_row ⟨"blt", 0x00004063, 0x0000707F⟩ (by decide) rfl (b_fixed _ _ _ _ _) (by decide)

theorem bge (rs1 rs2 : XReg) (imm : BitVec 13) : Statement (.bge rs1 rs2 imm) :=
  of_row ⟨"bge", 0x00005063, 0x0000707F⟩ (by decide) rfl (b_fixed _ _ _ _ _) (by decide)

theorem jal (rd : XReg) (imm : BitVec 21) : Statement (.jal rd imm) :=
  of_row ⟨"jal", 0x0000006F, 0x0000007F⟩ (by decide) rfl (j_fixed _ _ _) (by decide)

theorem jalr (rd rs1 : XReg) (imm : BitVec 12) : Statement (.jalr rd rs1 imm) :=
  of_row ⟨"jalr", 0x00000067, 0x0000707F⟩ (by decide) rfl (i_fixed _ _ _ _ _) (by decide)

theorem gemm (md ma mb mc : MReg) : Statement (.gemm md ma mb mc) :=
  of_row ⟨"gemm", 0x0000000B, 0xFF80007F⟩ (by decide) rfl (matrixAlu_fixed _ _ _ _ _) (by decide)

theorem ldm (md : MReg) (rs1 : XReg) (stride : BitVec 5) (imm : BitVec 11) : Statement (.ldm md rs1 stride imm) :=
  of_row ⟨"ld.m", 0x0000002B, 0x0000007F⟩ (by decide) rfl (matrixMem_fixed _ _ _ _ _) (by decide)

theorem stm (md : MReg) (rs1 : XReg) (stride : BitVec 5) (imm : BitVec 11) : Statement (.stm md rs1 stride imm) :=
  of_row ⟨"st.m", 0x0000005B, 0x0000007F⟩ (by decide) rfl (matrixMem_fixed _ _ _ _ _) (by decide)

theorem halt : Statement .halt := of_row ⟨"halt", 0xFFFFFFFF, 0xFFFFFFFF⟩ (by decide) rfl rfl (by decide)

end Sys2Proof.Laws.FixedBits
end

