-- ==== Sys2Proof/Laws/Run.lean ====
section
/-! SUPPORT. One turn of the host's loop, and of `Core::run` (spec/60_exceptions.md R312). -/

namespace Sys2Proof.Machine

theorem hostRun_next {M : Host.Core} {s t : M.State} (k : Nat) (h : M.step s = .next t) :
    M.run (k + 1) s = M.run k t := by
  rw [Host.Core.run, h]

/-- The host's loop takes a step that answers a next state. -/
theorem core_run_next {s t : State} (k : Nat) (h : step s = .next t) :
    Sys2Proof.core.run (k + 1) s = Sys2Proof.core.run k t := hostRun_next (M := Sys2Proof.core) k h

/-- The host's loop does not leave a state whose step answers it again. -/
theorem core_run_fixed {s : State} (h : step s = .next s) (k : Nat) : Sys2Proof.core.run k s = .next s := by
  induction k with
  | zero => rfl
  | succ k ih => rw [core_run_next k h, ih]

/-- A Running Core's step answers a next state. -/
theorem step_running_next {s : State} (h : s.status = .running) : ∃ t, step s = .next t := by
  rcases step_cases h with ⟨f, _, e⟩ | ⟨w, r, _, _, e⟩ | ⟨w, i, _, _, _, e⟩
  · exact ⟨_, e⟩
  · exact ⟨_, e⟩
  · obtain ⟨t, ht, _⟩ := exec_ends i s
    exact ⟨t, e.trans ht⟩

theorem runCounting_zero (s : State) : runCounting 0 s = (outcomeOf s.status, s, 0) := rfl

/-- A Core that is not Running makes no turn. -/
theorem runCounting_stopped (n : Nat) {s : State} (h : s.status ≠ .running) :
    runCounting n s = (outcomeOf s.status, s, 0) := by
  cases n with
  | zero => rfl
  | succ n => simp [runCounting, h]

/-- A Running Core makes one turn and goes on. -/
theorem runCounting_running (n : Nat) {s t : State} (h : s.status = .running) (ht : step s = .next t) :
    runCounting (n + 1) s = ((runCounting n t).1, (runCounting n t).2.1, (runCounting n t).2.2 + 1) := by
  simp [runCounting, h, ht]

end Sys2Proof.Machine
end

