-- ==== Sys2Proof/Tests/Slice0.lean ====
section
/-! SUPPORT. Tests: what the checks refuse, words written out from the encodings of spec/30_encoding.md, single steps
from spec/95_test_vectors.md (the vector's number stands in each comment), and a witness for the hypotheses of each
statement. -/

namespace Sys2Proof.Tests

open Sys2Proof.Machine Sys2Proof.Spec

/-! ## WellFormed -/

theorem test_odd_beq_refused : (Instr.beq 1 2 5).wellFormed = false := by decide
theorem test_odd_bne_refused : (Instr.bne 1 2 (-1)).wellFormed = false := by decide
theorem test_odd_blt_refused : (Instr.blt 1 2 4095).wellFormed = false := by decide
theorem test_odd_bge_refused : (Instr.bge 1 2 1).wellFormed = false := by decide
theorem test_odd_jal_refused : (Instr.jal 1 1048575).wellFormed = false := by decide
theorem test_even_jal_accepted : (Instr.jal 1 1048574).wellFormed = true := by decide

/-! ## Decoding, each word written out by its fields -/

/-- R85, R103: funct7, rs2, rs1, funct3, rd, opcode. -/
theorem test_decode_reg :
    decode 0b0000000_00010_00001_000_00011_0110011 = .ok (.add 3 1 2) ∧
    decode 0b0100000_00010_00001_000_00011_0110011 = .ok (.sub 3 1 2) ∧
    decode 0b0000000_00010_00001_001_00011_0110011 = .ok (.sll 3 1 2) ∧
    decode 0b0000000_00010_00001_010_00011_0110011 = .ok (.slt 3 1 2) ∧
    decode 0b0000000_00010_00001_011_00011_0110011 = .ok (.sltu 3 1 2) ∧
    decode 0b0000000_00010_00001_100_00011_0110011 = .ok (.xor 3 1 2) := by decide

/-- R85, R103. -/
theorem test_decode_reg_more :
    decode 0b0000000_00010_00001_101_00011_0110011 = .ok (.srl 3 1 2) ∧
    decode 0b0100000_00010_00001_101_00011_0110011 = .ok (.sra 3 1 2) ∧
    decode 0b0000000_00010_00001_110_00011_0110011 = .ok (.or 3 1 2) ∧
    decode 0b0000000_00010_00001_111_00011_0110011 = .ok (.and 3 1 2) ∧
    decode 0b0000001_00010_00001_000_00011_0110011 = .ok (.mul 3 1 2) ∧
    decode 0b0000010_00000_00001_000_00011_0110011 = .ok (.mov 3 1) := by decide

/-- R86, R104: immediate, rs1, funct3, rd, opcode. -/
theorem test_decode_imm :
    decode 0b100000000101_00001_000_00011_0010011 = .ok (.addi 3 1 0x805) ∧
    decode 0b100000000101_00001_010_00011_0010011 = .ok (.slti 3 1 0x805) ∧
    decode 0b100000000101_00001_011_00011_0010011 = .ok (.sltui 3 1 0x805) ∧
    decode 0b100000000101_00001_100_00011_0010011 = .ok (.xori 3 1 0x805) ∧
    decode 0b100000000101_00001_110_00011_0010011 = .ok (.ori 3 1 0x805) ∧
    decode 0b100000000101_00001_111_00011_0010011 = .ok (.andi 3 1 0x805) := by decide

/-- R101, R104: funct7, shift amount, rs1, funct3, rd, opcode. -/
theorem test_decode_shift :
    decode 0b0000000_11111_00001_001_00011_0010011 = .ok (.slli 3 1 31) ∧
    decode 0b0000000_11111_00001_101_00011_0010011 = .ok (.srli 3 1 31) ∧
    decode 0b0100000_11111_00001_101_00011_0010011 = .ok (.srai 3 1 31) := by decide

/-- R89: immediate, rd, opcode. -/
theorem test_decode_upper :
    decode 0b10000000000000000001_00001_0110111 = .ok (.lui 1 0x80001) := by decide

/-- R86, R87, R105. The S immediate is w[31:25] over w[11:7]. -/
theorem test_decode_memory :
    decode 0b100000000100_00010_010_00001_0000011 = .ok (.lw 1 2 0x804) ∧
    decode 0b1000001_00001_00010_010_00110_0100011 = .ok (.sw 1 2 0x826) := by decide

/-- R88, R97, R106: offset bit 12, bits 10..5, rs2, rs1, funct3, bits 4..1, bit 11, opcode. -/
theorem test_decode_branch :
    decode 0b1_000010_00010_00001_000_0011_0_1100011 = .ok (.beq 1 2 0b1_0_000010_0011_0) ∧
    decode 0b1_000010_00010_00001_001_0011_0_1100011 = .ok (.bne 1 2 0b1_0_000010_0011_0) ∧
    decode 0b1_000010_00010_00001_100_0011_0_1100011 = .ok (.blt 1 2 0b1_0_000010_0011_0) ∧
    decode 0b1_000010_00010_00001_101_0011_0_1100011 = .ok (.bge 1 2 0b1_0_000010_0011_0) ∧
    decode 0b0_000000_00010_00001_000_0000_1_1100011 = .ok (.beq 1 2 0b0_1_000000_0000_0) := by decide

/-- R90, R91, R99: offset bit 20, bits 10..1, bit 11, bits 19..12, rd, opcode. -/
theorem test_decode_jump :
    decode 0b1_0000000011_0_00000101_00001_1101111 = .ok (.jal 1 0b1_00000101_0_0000000011_0) ∧
    decode 0b0_0000000000_1_00000000_00001_1101111 = .ok (.jal 1 0b0_00000000_1_0000000000_0) ∧
    decode 0b100000000101_00010_000_00001_1100111 = .ok (.jalr 1 2 0x805) := by decide

/-- R92, R93, R107: rc, rb, ra, rd; immediate, stride, rs1, rd. -/
theorem test_decode_matrix :
    decode 0b000000000_0100_0011_0010_0001_0001011 = .ok (.gemm 1 2 3 4) ∧
    decode 0b10000000001_00011_00010_0001_0101011 = .ok (.ldm 1 2 3 0x401) ∧
    decode 0b10000000001_00011_00010_0001_1011011 = .ok (.stm 1 2 3 0x401) := by decide

/-- R94. -/
theorem test_decode_halt :
    decode 0b11111111111111111111111111111111 = .ok (.halt) := by decide

/-- V113 to V119 and V121 to V126: words without a meaning (R108). -/
theorem test_decode_rejects :
    decode 0x00000000 = .error .unknownOpcode ∧
    decode 0x0000002F = .error .unknownOpcode ∧
    decode 0x0000007F = .error .notTheSentinel ∧
    decode 0xFFFFFFFE = .error .unknownOpcode ∧
    decode 0x062081B3 = .error .regFunct ∧
    decode 0x041081B3 = .error .movRs2 ∧
    decode 0x40109193 = .error .shiftFunct7 ∧
    decode 0x0210D193 = .error .shiftFunct7 ∧
    decode 0x00008183 = .error .loadFunct3 ∧
    decode 0x0010B023 = .error .storeFunct3 ∧
    decode 0x00009067 = .error .jalrFunct3 ∧
    decode 0x0020A463 = .error .branchFunct3 ∧
    decode 0x0088898B = .error .gemmReserved := by decide

/-- 95_test_vectors section 2: the word stored as 93 00 F0 FF (R82, R83). -/
theorem test_decode_bytes :
    (decodeBytes [0x93, 0x00, 0xF0, 0xFF, 0x13]).toOption = some (.addi 1 0 (-1), [0x13]) ∧
    decodeBytes [0x93, 0x00, 0xF0] = .error .truncated := by decide

theorem test_encode : encode (.bge 1 2 (-4096)) = 0x8020D063 ∧ encode (.srai 31 31 31) = 0x41FFDF93 := by decide

theorem test_decodeTableWord : decodeTableWord 32 0x0066F78B = some (.gemm 15 14 13 12) ∧
    decodeTableWord 32 0x062081B3 = none := by decide

/-! ## Single steps -/

/-- The conventions of 95_test_vectors.md: 0x400 bytes of zeros, pc 0x100, every register 0. -/
def start : State where
  x := Vector.replicate 32 0
  m := Vector.replicate 16 Tile.zero
  pc := 0x100
  mem := { size := 0x400, cells := [] }
  ctrl := { startAddress := 0x100, stackPointer := 0 }
  status := .running
  params := Params.decided

def withBytes (s : State) (a : Nat) (bytes : List Byte) : State := { s with mem := s.mem.writeBytes a bytes }

def wrapped (s : State) : State := { s with params := { s.params with branchCmp := .wrapped } }

def rs1First (s : State) : State := { s with params := { s.params with jalrOrder := .rs1First } }

/-- The tile of 16 patterns, row by row. -/
def tile (patterns : List Half) : Tile := Tile.ofFn fun r c => patterns.getD (4 * r.val + c.val) 0

def answer (r : Result) : Option State :=
  match r with
  | .next t => some t
  | .fault _ => none
  | .refused _ => none

theorem answer_next {r : Result} {t : State} (h : answer r = some t) : r = .next t := by
  cases r <;> simp_all [answer]

/-- One step with a word placed at the pc. -/
def after (s : State) (w : Nat) : Option State := answer (step (s.withFetchWord 32 w))

/-- Register `r` and pc after the step. -/
def regAfter (s : State) (w : Nat) (r : XReg) : Option (Word × Word) := (after s w).map fun t => (t.readX r, t.pc)

/-- `n` bytes of memory from `a` on and pc after the step. -/
def memAfter (s : State) (w a n : Nat) : Option (List Byte × Word) :=
  (after s w).map fun t => (t.mem.readBytes a n, t.pc)

/-- Status and pc after the step. -/
def statusAfter (s : State) (w : Nat) : Option (Status × Word) := (after s w).map fun t => (t.status, t.pc)

/-- An element of m[q] after the step. -/
def tileAfter (s : State) (w : Nat) (q : MReg) (r c : Fin 4) : Option Half :=
  (after s w).map fun t => (t.readM q).elem r c

/-- V4: add x1, x1, x1. -/
theorem test_add : regAfter (start.writeX 1 0x40000000) 0x001080B3 1 = some (0x80000000, 0x104) := by decide

/-- V5: add x0, x1, x2. -/
theorem test_add_more :
    regAfter ((start.writeX 1 0x00000003).writeX 2 0x00000004) 0x00208033 0 = some (0x00000007, 0x104) := by decide

/-- V6: sub x3, x1, x2. -/
theorem test_sub :
    regAfter ((start.writeX 1 0x00000003).writeX 2 0x00000004) 0x402081B3 3 = some (0xFFFFFFFF, 0x104) := by decide

/-- V7: sub x3, x1, x2. -/
theorem test_sub_more :
    regAfter ((start.writeX 1 0x80000000).writeX 2 0x00000001) 0x402081B3 3 = some (0x7FFFFFFF, 0x104) := by decide

/-- V9: xor x3, x1, x2. -/
theorem test_xor :
    regAfter ((start.writeX 1 0xF0F0F0F0).writeX 2 0xFF00FF00) 0x0020C1B3 3 = some (0x0FF00FF0, 0x104) := by decide

/-- V10: or x3, x1, x2. -/
theorem test_or :
    regAfter ((start.writeX 1 0xF0F0F0F0).writeX 2 0x0F0F0000) 0x0020E1B3 3 = some (0xFFFFF0F0, 0x104) := by decide

/-- V11: and x3, x1, x2. -/
theorem test_and :
    regAfter ((start.writeX 1 0xF0F0F0F0).writeX 2 0xFF00FF00) 0x0020F1B3 3 = some (0xF000F000, 0x104) := by decide

/-- V13: sll x3, x1, x2. -/
theorem test_sll :
    regAfter ((start.writeX 1 0x00000001).writeX 2 0x0000001F) 0x002091B3 3 = some (0x80000000, 0x104) := by decide

/-- V14: sll x3, x1, x2. -/
theorem test_sll_more :
    regAfter ((start.writeX 1 0x12345678).writeX 2 0x00000020) 0x002091B3 3 = some (0x12345678, 0x104) := by decide

/-- V16: srl x3, x1, x2. -/
theorem test_srl :
    regAfter ((start.writeX 1 0xFFFFFFFF).writeX 2 0x00000001) 0x0020D1B3 3 = some (0x7FFFFFFF, 0x104) := by decide

/-- V18: srl x3, x1, x2. -/
theorem test_srl_more :
    regAfter ((start.writeX 1 0x80000000).writeX 2 0x00000021) 0x0020D1B3 3 = some (0x40000000, 0x104) := by decide

/-- V19: sra x3, x1, x2. -/
theorem test_sra :
    regAfter ((start.writeX 1 0x80000000).writeX 2 0x00000004) 0x4020D1B3 3 = some (0xF8000000, 0x104) := by decide

/-- V20: sra x3, x1, x2. -/
theorem test_sra_more :
    regAfter ((start.writeX 1 0x80000000).writeX 2 0x0000001F) 0x4020D1B3 3 = some (0xFFFFFFFF, 0x104) := by decide

/-- V23: slt x3, x1, x2. -/
theorem test_slt :
    regAfter ((start.writeX 1 0x80000000).writeX 2 0x7FFFFFFF) 0x0020A1B3 3 = some (0x00000001, 0x104) := by decide

/-- V24: slt x3, x1, x2. -/
theorem test_slt_more :
    regAfter ((start.writeX 1 0x00000005).writeX 2 0x00000005) 0x0020A1B3 3 = some (0x00000000, 0x104) := by decide

/-- V25: sltu x3, x1, x2. -/
theorem test_sltu :
    regAfter ((start.writeX 1 0x00000000).writeX 2 0xFFFFFFFF) 0x0020B1B3 3 = some (0x00000001, 0x104) := by decide

/-- V26: sltu x3, x1, x2. -/
theorem test_sltu_more :
    regAfter ((start.writeX 1 0xFFFFFFFF).writeX 2 0x00000000) 0x0020B1B3 3 = some (0x00000000, 0x104) := by decide

/-- V30: mul x3, x1, x2. -/
theorem test_mul :
    regAfter ((start.writeX 1 0x80000000).writeX 2 0xFFFFFFFF) 0x022081B3 3 = some (0x80000000, 0x104) := by decide

/-- V31: mul x3, x1, x2. -/
theorem test_mul_more :
    regAfter ((start.writeX 1 0x7FFFFFFF).writeX 2 0x00000002) 0x022081B3 3 = some (0xFFFFFFFE, 0x104) := by decide

/-- V32: mov x3, x1. -/
theorem test_mov : regAfter (start.writeX 1 0x12345678) 0x040081B3 3 = some (0x12345678, 0x104) := by decide

/-- V36: addi x1, x1, 1. -/
theorem test_addi : regAfter (start.writeX 1 0x7FFFFFFF) 0x00108093 1 = some (0x80000000, 0x104) := by decide

/-- V38: addi x1, x0, 5. -/
theorem test_addi_more : regAfter (start.writeX 0 0x00000010) 0x00500093 1 = some (0x00000015, 0x104) := by decide

/-- V39: xori x3, x1, -1. -/
theorem test_xori : regAfter (start.writeX 1 0x0000FFFF) 0xFFF0C193 3 = some (0xFFFF0000, 0x104) := by decide

/-- V41: ori x3, x1, -2048. -/
theorem test_ori : regAfter (start.writeX 1 0x00000000) 0x8000E193 3 = some (0xFFFFF800, 0x104) := by decide

/-- V42: andi x3, x1, 0x0FF. -/
theorem test_andi : regAfter (start.writeX 1 0x12345678) 0x0FF0F193 3 = some (0x00000078, 0x104) := by decide

/-- V45: slli x3, x1, 31. -/
theorem test_slli : regAfter (start.writeX 1 0x00000003) 0x01F09193 3 = some (0x80000000, 0x104) := by decide

/-- V47: srli x3, x1, 1. -/
theorem test_srli : regAfter (start.writeX 1 0xFFFFFFFF) 0x0010D193 3 = some (0x7FFFFFFF, 0x104) := by decide

/-- V50: srai x3, x1, 31. -/
theorem test_srai : regAfter (start.writeX 1 0x80000000) 0x41F0D193 3 = some (0xFFFFFFFF, 0x104) := by decide

/-- V51: slti x3, x1, -1. -/
theorem test_slti : regAfter (start.writeX 1 0xFFFFFFFE) 0xFFF0A193 3 = some (0x00000001, 0x104) := by decide

/-- V52: slti x3, x1, -1. -/
theorem test_slti_more : regAfter (start.writeX 1 0xFFFFFFFF) 0xFFF0A193 3 = some (0x00000000, 0x104) := by decide

/-- V53: sltui x3, x1, -1. -/
theorem test_sltui : regAfter (start.writeX 1 0x00000005) 0xFFF0B193 3 = some (0x00000001, 0x104) := by decide

/-- V55: sltui x3, x1, 1. -/
theorem test_sltui_more : regAfter (start.writeX 1 0x00000000) 0x0010B193 3 = some (0x00000001, 0x104) := by decide

/-- V56: lui x5, 1. -/
theorem test_lui : regAfter (start.writeX 5 0xFFFFFFFF) 0x000012B7 5 = some (0x00001000, 0x104) := by decide

/-- V58: lui x1, 0xFFFFF. -/
theorem test_lui_more : regAfter start 0xFFFFF0B7 1 = some (0xFFFFF000, 0x104) := by decide

/-- V61: lw x8, -4(x5). -/
theorem test_lw :
    regAfter (withBytes (start.writeX 5 0x00000204) 0x200 [0x78, 0x56, 0x34, 0x12]) 0xFFC2A403 8 =
      some (0x12345678, 0x104) := by decide

/-- V62: lw x5, 0(x5). -/
theorem test_lw_more :
    regAfter (withBytes (start.writeX 5 0x00000200) 0x200 [0x44, 0x33, 0x22, 0x11]) 0x0002A283 5 =
      some (0x11223344, 0x104) := by decide

/-- V70: sw x1, 2047(x2). -/
theorem test_sw :
    memAfter ((start.writeX 1 0x00000009).writeX 2 0xFFFFFA01) 0x7E112FA3 0x200 4 =
      some ([0x09, 0x00, 0x00, 0x00], 0x104) := by decide

/-- V72: sw x5, 0(x5). -/
theorem test_sw_more :
    memAfter (start.writeX 5 0x00000208) 0x0052A023 0x208 4 = some ([0x08, 0x02, 0x00, 0x00], 0x104) := by decide

/-- V78: beq x1, x2, 4094. -/
theorem test_beq :
    (after ((start.writeX 1 0x00000001).writeX 2 0x00000001) 0x7E208FE3).map (·.pc) = some 0x10FE := by decide

/-- V79: beq x1, x2, 4094. -/
theorem test_beq_more :
    (after ((start.writeX 1 0x00000001).writeX 2 0x00000002) 0x7E208FE3).map (·.pc) = some 0x104 := by decide

/-- V81: bne x6, x0, -16. -/
theorem test_bne : (after ((start.writeX 6 0x00000003).setPc 0x1C) 0xFE0318E3).map (·.pc) = some 0xC := by decide

/-- V82: bne x6, x0, -16. -/
theorem test_bne_more :
    (after ((start.writeX 6 0x00000000).setPc 0x1C) 0xFE0318E3).map (·.pc) = some 0x20 := by decide

/-- V85: blt x1, x2, 8. -/
theorem test_blt :
    (after (((start.writeX 1 0x80000000).writeX 2 0x00000001).setPc 0x40) 0x0020C463).map (·.pc) =
      some 0x48 := by decide

/-- V86: blt x1, x2, 8. -/
theorem test_blt_more :
    (after (wrapped (((start.writeX 1 0x80000000).writeX 2 0x00000001).setPc 0x40)) 0x0020C463).map (·.pc) =
      some 0x44 := by decide

/-- V87: bge x1, x2, -256. -/
theorem test_bge :
    (after ((start.writeX 1 0x00000003).writeX 2 0x00000003) 0xF020D0E3).map (·.pc) = some 0x0 := by decide

/-- V90: bge x1, x2, -256. -/
theorem test_bge_more :
    (after (wrapped ((start.writeX 1 0x7FFFFFFF).writeX 2 0xFFFFFFFF)) 0xF020D0E3).map (·.pc) =
      some 0x104 := by decide

/-- V93: jal x0, -8. -/
theorem test_jal : regAfter start 0xFF9FF06F 0 = some (0x00000104, 0xF8) := by decide

/-- V96: jal x1, -1048576. -/
theorem test_jal_more : regAfter start 0x800000EF 1 = some (0x00000104, 0xFFF00100) := by decide

/-- V98: jalr x1, x1, 4. -/
theorem test_jalr :
    regAfter ((start.writeX 1 0x00000100).setPc 0x20) 0x004080E7 1 = some (0x00000024, 0x28) := by decide

/-- V99: jalr x1, x1, 4. -/
theorem test_jalr_more :
    regAfter (rs1First ((start.writeX 1 0x00000100).setPc 0x20)) 0x004080E7 1 = some (0x00000024, 0x104) := by decide

/-- The tile m1 of 95_test_vectors.md, and m1 x m1 + m1. -/
def m1 : Tile := tile [0x3C00, 0x3C00, 0, 0, 0, 0x3C00, 0x3C00, 0, 0, 0, 0x3C00, 0x3C00, 0, 0, 0, 0x3C00]

def m3 : Tile := tile [0x4000, 0x4200, 0x3C00, 0, 0, 0x4000, 0x4200, 0x3C00, 0, 0, 0x4000, 0x4200, 0, 0, 0, 0x4000]

/-- V102: gemm m3, m1, m1, m1. The value 3.0 of an element off the diagonal, which no choice of free value changes. -/
theorem test_gemm : tileAfter (start.writeM 1 m1) 0x0008898B 3 0 1 = some 0x4200 ∧
    tileAfter (start.writeM 1 m1) 0x0008898B 3 3 3 = some 0x4000 := by decide

/-- V103: gemm m1, m1, m1, m1 reads the old m1 three times. -/
theorem test_gemm_more : tileAfter (start.writeM 1 m1) 0x0008888B 1 1 3 = some 0x3C00 := by decide

/-- V107: ld.m m2, -1024(x31). -/
theorem test_ldm :
    (after (withBytes (start.writeX 31 0x600) 0x202 [0x00, 0x3C, 0x34, 0x12]) 0x8000F92B).map
      (fun t => ((t.readM 2).elem 0 1, (t.readM 2).elem 0 2, t.pc)) = some (0x3C00, 0x1234, 0x104) := by decide

/-- V110: ld.m with stride 1 is refused. -/
theorem test_ldm_more :
    statusAfter (start.writeX 5 0x200) 0x000128AB = some (.refused .strideUnmodelled 0x100, 0x100) := by decide

/-- V105: st.m m3, 32(x5), the first and the last row. -/
theorem test_stm :
    memAfter ((start.writeX 5 0x200).writeM 3 m3) 0x040029DB 0x220 8 =
      some ([0x00, 0x40, 0x00, 0x42, 0x00, 0x3C, 0x00, 0x00], 0x104) ∧
    memAfter ((start.writeX 5 0x200).writeM 3 m3) 0x040029DB 0x23C 8 =
      some ([0x00, 0x00, 0x00, 0x40, 0x00, 0x00, 0x00, 0x00], 0x104) := by decide

/-- V111: st.m with stride 3 is refused before its address 0x201 is looked at. -/
theorem test_stm_more :
    statusAfter (start.writeX 5 0x200) 0x002328DB = some (.refused .strideUnmodelled 0x100, 0x100) := by decide

/-- V112. -/
theorem test_halt : statusAfter start 0xFFFFFFFF = some (.halted, 0x100) := by decide

/-- V63, V66, V75, V106, V108, V109: data faults. -/
theorem test_data_faults :
    statusAfter start 0x00102083 = some (.faulted (.alignmentFault 0x100 .load 1), 0x100) ∧
    statusAfter start 0xFFC02083 = some (.faulted (.boundsFault 0x100 .load 0xFFFFFFFC 4), 0x100) ∧
    statusAfter start 0x3E102F23 = some (.faulted (.alignmentFault 0x100 .store 0x3FE), 0x100) ∧
    statusAfter start 0x7F80085B = some (.faulted (.boundsFault 0x100 .tileStore 0x3FC 32), 0x100) ∧
    statusAfter (start.writeX 5 0x200) 0x004028AB = some (.faulted (.alignmentFault 0x100 .tileLoad 0x202), 0x100) ∧
    statusAfter (start.writeX 5 0x3E4) 0x000028AB = some (.faulted (.boundsFault 0x100 .tileLoad 0x3E4 32), 0x100) := by
  decide

/-- V113, V127, V128, V129: decode and fetch faults. -/
theorem test_step_faults :
    (answer (step start)).map (·.status) = some (.faulted (.decodeError 0x100 0)) ∧
    (answer (step (start.setPc 0x102))).map (·.status) = some (.faulted (.alignmentFault 0x102 .fetch 0x102)) ∧
    (answer (step (start.setPc 0x400))).map (·.status) = some (.faulted (.boundsFault 0x400 .fetch 0x400 4)) ∧
    (answer (step (start.setPc 0x402))).map (·.status) = some (.faulted (.alignmentFault 0x402 .fetch 0x402)) := by
  decide

/-- R313: a step after the refusal of V110 changes nothing. -/
theorem test_step_after_refusal :
    (after (start.writeX 5 0x200) 0x000128AB).bind (fun t => (answer (step t)).map (decide <| · = t)) = some true := by
  decide

/-- W6, P8: the four instructions of program P1, run by `Core::run(4)` and `Core::run(3)`. -/
theorem test_run :
    (coreNew ([0x00500093, 0x00700113, 0x002081B3, 0xFFFFFFFF].flatMap bytesOfWord)
      { startAddress := 0, stackPointer := 0x400 } 0x400 [] Params.decided).map
        (fun s => ((run 4 s).1, (run 4 s).2.readX 3, (run 3 s).1, (run 3 s).2.pc)) =
      some (.halted, 12, .iterationLimitReached, 0xC) := by decide

/-- 95_test_vectors section 2: the codec on 12 34 and on FF FE. -/
theorem test_codec :
    valueOf (bitsOf [0x12, 0x34]) false = 0x1234 ∧ valueOf (bitsOf [0xFF, 0xFE]) true = -2 := by decide

/-- W5: li x5, 5000. -/
theorem test_li : (Pseudo.li 5 5000).map encode = [0x000012B7, 0x38828293] := by decide
/-! ## Witnesses: concrete states and operands that meet the hypotheses of each statement, at boundary values -/

/-- The state with a word at its pc. -/
def at' (s : State) (w : Nat) : State := s.withFetchWord 32 w

theorem witness_RegisterMulMovResult : (1 : XReg) ≠ 0 ∧ (31 : XReg) ≠ 0 := by decide

/-- The effective address of lw and sw from a base of 0. -/
def eaWord (imm : BitVec 12) : Word := address start 0 imm

theorem witness_LoadWordResult_misaligned : (eaWord 1).toNat % 4 ≠ 0 ∧ (eaWord 0x3FF).toNat % 4 ≠ 0 := by
  decide
theorem witness_LoadWordResult_outside :
    (eaWord 0x400).toNat % 4 = 0 ∧ start.mem.size < (eaWord 0x400).toNat + 4 := by decide
theorem witness_LoadWordResult_completes :
    (eaWord 0x3FC).toNat % 4 = 0 ∧ (eaWord 0x3FC).toNat + 4 ≤ start.mem.size := by decide

theorem witness_StoreWordResult_misaligned :
    (eaWord (-1)).toNat % 4 ≠ 0 ∧ (eaWord 0x3FD).toNat % 4 ≠ 0 := by decide
theorem witness_StoreWordResult_outside :
    (eaWord (-4)).toNat % 4 = 0 ∧ start.mem.size < (eaWord (-4)).toNat + 4 := by decide
theorem witness_StoreWordResult_completes :
    (eaWord 0).toNat % 4 = 0 ∧ (eaWord 0).toNat + 4 ≤ start.mem.size := by decide

theorem witness_CanonicalMemoryIsDeterminedByReads : ∃ mem mem' : Memory, mem.wf ∧ mem'.wf ∧ mem.size = mem'.size ∧
    ∀ a, mem.readByte a = mem'.readByte a :=
  ⟨{ size := 0x400, cells := [(3, 5), (0x3FF, 1)] }, { size := 0x400, cells := [(3, 5), (0x3FF, 1)] },
    by decide, by decide, rfl, fun _ => rfl⟩

theorem witness_StoreIsSeenByFetch_word : start.status = .running ∧
    ∃ t, exec (.sw 1 0 0x3FC) start = .next t ∧ t.status = .running := ⟨rfl, _, rfl, rfl⟩
theorem witness_StoreIsSeenByFetch_tile : start.status = .running ∧ start.mem.wf ∧
    ∃ t, exec (.stm 1 0 0 0x3E0) start = .next t ∧ t.status = .running := ⟨rfl, by decide, _, rfl, rfl⟩

theorem witness_ConditionalBranchResult_offsets :
    evenOffset (4094 : BitVec 13) = true ∧ evenOffset (-4096 : BitVec 13) = true := by decide
theorem witness_ConditionalBranchResult_equal : start.readX 1 = start.readX 2 ∧
    (start.writeX 1 1).readX 1 ≠ (start.writeX 1 1).readX 2 := by decide
theorem witness_ConditionalBranchResult_exact :
    DifferenceNegative ((start.writeX 1 0x80000000).writeX 2 1) 1 2 ∧ ¬ DifferenceNegative start 1 2 :=
  ⟨by show (_ : Int) < _; decide, by show ¬ (_ : Int) < _; decide⟩
theorem witness_ConditionalBranchResult_wrapped :
    ¬ DifferenceNegative (wrapped ((start.writeX 1 0x80000000).writeX 2 1)) 1 2 ∧
    DifferenceNegative (wrapped ((start.writeX 1 0x7FFFFFFF).writeX 2 0xFFFFFFFF)) 1 2 :=
  ⟨by show ¬ (_ : Int) < _; decide, by show (_ : Int) < _; decide⟩

theorem witness_JumpAndLinkResult :
    evenOffset (1048574 : BitVec 21) = true ∧ evenOffset (-1048576 : BitVec 21) = true := by decide

theorem witness_GemmResult : (0 < 1 ∧ 1 < 2 ^ 9) ∧ (0 < 511 ∧ 511 < 2 ^ 9) := by decide

/-- The tile with every element 1.0. -/
def ones : Tile := Tile.ofFn fun _ _ => 0x3C00

theorem zero_units (i k : Fin 4) : Half.units (Tile.zero.elem i k) = 0 := by revert i k; decide
theorem ones_units (i k : Fin 4) : Half.units (ones.elem i k) = 2 ^ 24 := by revert i k; decide

/-- Zero times zero plus ones: every partial sum is 0 or 1. -/
theorem ones_exact (i j : Fin 4) : ElementExact Tile.zero Tile.zero ones i j := by
  intro p c _
  refine ⟨if c then 0x3C00 else 0, ?_⟩
  simp only [zero_units, ones_units, Int.zero_mul, ite_self, Finset.sum_const_zero, Int.zero_add]
  cases c <;> exact ⟨by decide, by decide⟩

theorem witness_GemmExactness : AllFinite Tile.zero ∧ AllFinite Tile.zero ∧ AllFinite ones ∧
    ∀ i j, ElementExact Tile.zero Tile.zero ones i j :=
  ⟨by unfold AllFinite; decide, by unfold AllFinite; decide, by unfold AllFinite; decide, ones_exact⟩

theorem witness_GemmFreeValueCoversEveryFunction : ExactAt (fun _ _ C => C) Tile.zero Tile.zero ones := by
  intro _ _ _ _ i j
  simp only [zero_units, ones_units, Int.zero_mul, Finset.sum_const_zero, Int.zero_add]
  exact ⟨by revert i j; decide, by rw [ones_units]⟩

/-- The effective address of ld.m and st.m from a base of 0. -/
def eaTile (imm : BitVec 11) : Word := address start 0 imm

theorem witness_LoadTileResult_misaligned : (eaTile 2).toNat % 4 ≠ 0 := by decide
theorem witness_LoadTileResult_outside : (eaTile 0x3E4).toNat % 4 = 0 ∧
    start.mem.size < (eaTile 0x3E4).toNat + 32 := by decide
theorem witness_LoadTileResult_completes : (eaTile 0x3E0).toNat % 4 = 0 ∧
    (eaTile 0x3E0).toNat + 32 ≤ start.mem.size := by decide

theorem witness_StoreTileResult_misaligned : (eaTile 0x3E1).toNat % 4 ≠ 0 := by decide
theorem witness_StoreTileResult_outside : (eaTile (-32)).toNat % 4 = 0 ∧
    start.mem.size < (eaTile (-32)).toNat + 32 := by decide
theorem witness_StoreTileResult_completes : (eaTile 0).toNat % 4 = 0 ∧
    (eaTile 0).toNat + 32 ≤ start.mem.size := by decide

theorem witness_StridedTileAccessIsRefused : (1 : BitVec 5) ≠ 0 ∧ (31 : BitVec 5) ≠ 0 := by decide

theorem witness_HaltResult : ((0x0000007F : Word).toNat % 128 = 0x7F ∧ (0x0000007F : Word) ≠ 0xFFFFFFFF) ∧
    ∃ t, exec .halt start = .next t := ⟨by decide, _, rfl⟩

theorem witness_DecodeOfEncode : (Instr.beq 1 2 4094).wellFormed = true ∧ (Instr.gemm 15 0 15 0).wellFormed = true := by
  decide
theorem witness_EncodeOfDecode : decode 0x8020D063 = .ok (.bge 1 2 (-4096)) := by decide
theorem witness_DecodeFollowsOpcodeTable_row :
    ∃ row ∈ opcodeTable, row.matchesWord 0x0066F78B = true := ⟨⟨"gemm", 0x0000000B, 0xFF80007F⟩, by decide, by decide⟩
theorem witness_DecodeFollowsOpcodeTable_word : decode 0x41FFDF93 = .ok (.srai 31 31 31) := by decide
theorem witness_DecodeFollowsOpcodeTable_two_rows : ∃ row ∈ opcodeTable, ∃ row' ∈ opcodeTable,
    row.matchesWord 0x040081B3 = true ∧ row'.matchesWord 0x040081B3 = true :=
  ⟨⟨"mov", 0x04000033, 0xFFF0707F⟩, by decide, ⟨"mov", 0x04000033, 0xFFF0707F⟩, by decide, by decide, by decide⟩

theorem witness_CodecBitOrder : 0 < 8 * [(0x12 : Byte), 0x34].length ∧ 15 < 8 * [(0x12 : Byte), 0x34].length := by decide
theorem witness_CodecValue : 0 < [true].length := by decide

theorem witness_FetchAlignmentFault : (start.setPc 0x3FD).status = .running ∧ (start.setPc 0x3FD).pc.toNat % 4 ≠ 0 := by
  decide
theorem witness_FetchBoundsFault : (start.setPc 0x400).status = .running ∧ (start.setPc 0x400).pc.toNat % 4 = 0 ∧
    (start.setPc 0x400).mem.size < (start.setPc 0x400).pc.toNat + 4 := by decide
theorem witness_DecodeFault : (start.setPc 0x3FC).status = .running ∧ (start.setPc 0x3FC).accessible 0x3FC 4 ∧
    decode (wordAt (start.setPc 0x3FC) 0x3FC) = .error .unknownOpcode := ⟨by decide, ⟨by decide, by decide⟩, by decide⟩
theorem witness_StepRunsDecodedInstruction : (at' start 0x00208033).status = .running ∧
    (at' start 0x00208033).accessible 0x100 4 ∧ decode (wordAt (at' start 0x00208033) 0x100) = .ok (.add 0 1 2) :=
  ⟨by decide, ⟨by decide, by decide⟩, by decide⟩

theorem witness_DataAlignmentFault : dataAccess (.lw 1 0 0x3FE) start = some ⟨.load, 0x3FE, 4⟩ ∧
    (Instr.lw 1 0 0x3FE).strided = false ∧ (0x3FE : Word).toNat % 4 ≠ 0 := by decide
theorem witness_DataBoundsFault : dataAccess (.stm 1 0 0 0x3E4) start = some ⟨.tileStore, 0x3E4, 32⟩ ∧
    (Instr.stm 1 0 0 0x3E4).strided = false ∧ (0x3E4 : Word).toNat % 4 = 0 ∧
    start.mem.size < (0x3E4 : Word).toNat + 32 := by decide

/-- The step of a Core at a zero word. -/
theorem start_step : step start = .next (faulted start (.decodeError 0x100 0)) := answer_next (by decide)

theorem witness_FaultsArePrecise : ∃ t f, start.status = .running ∧ step start = .next t ∧ t.status = .faulted f :=
  ⟨_, _, rfl, start_step, rfl⟩
theorem witness_RegisterIndexFaultIsNeverRaised : start.status = .running ∧ ∃ t, step start = .next t :=
  ⟨rfl, _, start_step⟩

/-- The step of a Core at `add x0, x1, x2`. -/
theorem add_step : step (at' start 0x00208033) = .next (retireX (at' start 0x00208033) 0 0) := answer_next (by decide)

theorem witness_ChecksComeInOrder_status : ({ start with status := .halted } : State).status ≠ .running ∧
    step { start with status := .halted } = .next { start with status := .halted } := ⟨by decide, rfl⟩
theorem witness_ChecksComeInOrder_fetch : ((start.setPc 0x402).status = .running ∧ (start.setPc 0x402).pc.toNat % 4 ≠ 0) ∧
    (start.setPc 0x400).status = .running ∧ (start.setPc 0x400).pc.toNat % 4 = 0 ∧
    (start.setPc 0x400).mem.size < (start.setPc 0x400).pc.toNat + 4 := by decide
theorem witness_ChecksComeInOrder_decode : start.status = .running ∧ start.accessible 0x100 4 ∧
    decode (wordAt start 0x100) = .error .unknownOpcode := ⟨by decide, ⟨by decide, by decide⟩, by decide⟩
theorem witness_ChecksComeInOrder_stride : (at' start 0x002328DB).status = .running ∧
    (at' start 0x002328DB).accessible 0x100 4 ∧ decode (wordAt (at' start 0x002328DB) 0x100) = .ok (.stm 1 5 3 1) ∧
    (Instr.stm 1 5 3 1).strided = true := ⟨by decide, ⟨by decide, by decide⟩, by decide, by decide⟩
theorem witness_ChecksComeInOrder_data_alignment : (at' start 0x3E102F23).status = .running ∧
    (at' start 0x3E102F23).accessible 0x100 4 ∧ decode (wordAt (at' start 0x3E102F23) 0x100) = .ok (.sw 1 0 0x3FE) ∧
    (Instr.sw 1 0 0x3FE).strided = false ∧
    dataAccess (.sw 1 0 0x3FE) (at' start 0x3E102F23) = some ⟨.store, 0x3FE, 4⟩ ∧ (0x3FE : Word).toNat % 4 ≠ 0 :=
  ⟨by decide, ⟨by decide, by decide⟩, by decide, by decide, by decide, by decide⟩
theorem witness_ChecksComeInOrder_data_bounds : (at' start 0x7F80085B).status = .running ∧
    (at' start 0x7F80085B).accessible 0x100 4 ∧ decode (wordAt (at' start 0x7F80085B) 0x100) = .ok (.stm 0 1 0 0x3FC) ∧
    (Instr.stm 0 1 0 0x3FC).strided = false ∧
    dataAccess (.stm 0 1 0 0x3FC) (at' start 0x7F80085B) = some ⟨.tileStore, 0x3FC, 32⟩ ∧ (0x3FC : Word).toNat % 4 = 0 ∧
    (at' start 0x7F80085B).mem.size < (0x3FC : Word).toNat + 32 :=
  ⟨by decide, ⟨by decide, by decide⟩, by decide, by decide, by decide, by decide, by decide⟩
theorem witness_ChecksComeInOrder_effect : (at' start 0x00208033).status = .running ∧
    (at' start 0x00208033).accessible 0x100 4 ∧ decode (wordAt (at' start 0x00208033) 0x100) = .ok (.add 0 1 2) ∧
    (Instr.add 0 1 2).strided = false ∧ ∀ acc, dataAccess (.add 0 1 2) (at' start 0x00208033) = some acc →
      (at' start 0x00208033).accessible acc.addr acc.size :=
  ⟨by decide, ⟨by decide, by decide⟩, by decide, by decide, fun _ h => nomatch h⟩

theorem witness_StoppedCoreStep : ({ start with status := .halted } : State).status ≠ .running ∧
    (faulted start (.decodeError 0x100 0)).status ≠ .running ∧
    ({ start with status := .refused .strideUnmodelled 0x100 } : State).status ≠ .running := by decide
theorem witness_RunningStepAnswersNext : start.status = .running := rfl
theorem witness_StatusAfterExecution : start.status = .running ∧ ∃ t, exec (.ldm 1 0 31 0) start = .next t :=
  ⟨rfl, _, rfl⟩

theorem start_inv : start.Inv := ⟨by decide, trivial⟩

theorem witness_StepKeepsInvariant : start.Inv ∧ ∃ t, step start = .next t := ⟨start_inv, _, start_step⟩
theorem witness_ScalarRegisterFrame : (∃ t, exec (.jal 0 2) start = .next t) ∧ (Instr.jal 0 2).xDest ≠ some 31 :=
  ⟨⟨_, rfl⟩, by decide⟩
theorem witness_MatrixRegisterFrame : (∃ t, exec (.ldm 0 0 0 0) start = .next t) ∧ (Instr.ldm 0 0 0 0).mDest ≠ some 15 :=
  ⟨⟨_, rfl⟩, by decide⟩
theorem witness_MemoryFrame : (∃ t, exec (.stm 0 0 0 0x3E0) start = .next t) ∧ ¬ storesTo (.stm 0 0 0 0x3E0) start 0x3DF ∧
    ¬ storesTo (.stm 0 0 0 0x3E0) start 0x400 := ⟨⟨_, rfl⟩, by unfold storesTo; decide, by unfold storesTo; decide⟩
theorem witness_ConstructionArgumentsNeverChange : ∃ t, step start = .next t := ⟨_, start_step⟩
theorem witness_SequentialPc : (∃ t, exec (.lw 1 0 0x3FC) start = .next t ∧ t.status = .running) ∧
    start.status = .running ∧ (Instr.lw 1 0 0x3FC).transfersControl = false := ⟨⟨_, rfl, rfl⟩, rfl, rfl⟩

theorem witness_ConstructionValues : (∃ s, coreNew [0x93, 0xFF] { startAddress := 0x101, stackPointer := 0x400 } 0x400
    [(2, 0x55), (0x3FF, 1)] Params.decided = some s) ∧ (0 : XReg) ≠ 2 ∧ 1 < [(0x93 : Byte), 0xFF].length ∧
    [(0x93 : Byte), 0xFF].length ≤ 2 ∧ 2 < 0x400 := ⟨⟨_, rfl⟩, by decide, by decide, by decide, by decide⟩
theorem witness_ConstructionDrawsAnyBytes : [(0x93 : Byte)].length ≤ 2 ^ 31 ∧ 2 ^ 31 ≤ 2 ^ 31 ∧
    [(0x93 : Byte)].length ≤ 1 ∧ 1 < 2 ^ 31 := by decide

theorem witness_RunStopsAtStatusOrBound : 0 < iterations 3 (at' start 0x00000063) ∧
    Sys2Proof.core.run 0 (at' start 0x00000063) = .next (at' start 0x00000063) ∧
    (run 3 (at' start 0x00000063)).2.status = .running := ⟨by decide, rfl, by decide⟩
theorem witness_RunResumes : (run 3 (at' start 0x00000063)).1 = .iterationLimitReached := by decide

theorem witness_LoadImmediateExpansion_long : (-2 ^ 31 ≤ (-2 ^ 31 : Int) ∧ (-2 ^ 31 : Int) < 2 ^ 32) ∧
    (-2 ^ 31 ≤ (2 ^ 32 - 1 : Int) ∧ (2 ^ 32 - 1 : Int) < 2 ^ 32) := by decide
theorem witness_LoadImmediateExpansion_short : (-2048 ≤ (-2048 : Int) ∧ (-2048 : Int) ≤ 2047) ∧
    (-2048 ≤ (2047 : Int) ∧ (2047 : Int) ≤ 2047) := by decide
theorem witness_PushThenPopRestores : (1 : XReg) ≠ 2 ∧
    (start.writeX 2 0x400).accessible ((start.writeX 2 0x400).readX 2 - 4) 4 := ⟨by decide, by decide, by decide⟩

end Sys2Proof.Tests
end

/-! # The state of a Core: what an instruction changes, and what construction makes

Proofs for the statements about spec/10_state.md. The frames all follow from one lemma on how an instruction ends
(`Ends.frame`) and one on how a step ends (`step_frame`); the statements about construction follow from one inversion
lemma (`coreNew_eq_some_iff`). -/

namespace Sys2Proof.Machine

/-! ## Frames of an instruction and of a step -/

/-- What neither a change of status nor the effect of an instruction changes is as before when the instruction ends. -/
theorem Ends.frame {α : Type} {i : Instr} {s t : State} (h : Ends i s t) (f : State → α)
    (hst : ∀ st, f { s with status := st } = f s) (he : f (effect i s) = f s) : f t = f s := by
  cases h with
  | refused => exact hst _
  | faulted => exact hst _
  | done => exact he

/-- A Core that is not Running executes nothing (R313). -/
theorem step_stopped {s : State} (h : s.status ≠ .running) : step s = .next s := by
  unfold step
  split
  case h_1 hr => exact absurd hr h
  all_goals rfl

/-- What neither a change of status nor the effect of any instruction changes is as before after a step. -/
theorem step_frame {α : Type} {s t : State} (h : step s = .next t) (f : State → α)
    (hst : ∀ st, f { s with status := st } = f s) (he : ∀ i, f (effect i s) = f s) : f t = f s := by
  by_cases hr : s.status = .running
  · rcases step_cases hr with ⟨_, _, e⟩ | ⟨_, _, _, _, e⟩ | ⟨_, i, _, _, _, e⟩
    · cases e.symm.trans h; exact hst _
    · cases e.symm.trans h; exact hst _
    · exact (exec_cases (e.symm.trans h)).frame f hst (he i)
  · cases (step_stopped hr).symm.trans h; rfl

/-- Settles O47: a refusal and a fault change only the status, and an effect writes no other register than rd. -/
theorem scalarRegisterFrame : Obligations.ScalarRegisterFrame := by
  intro i s t r h hr
  exact (exec_cases h).frame (·.readX r) (fun _ => rfl) (effect_readX i s r hr)

/-- Settles O48: a refusal and a fault change only the status, and an effect writes no other tile than m[md]. -/
theorem matrixRegisterFrame : Obligations.MatrixRegisterFrame := by
  intro i s t q h hq
  exact (exec_cases h).frame (·.readM q) (fun _ => rfl) (effect_readM i s q hq)

/-- Settles O50: no effect of an instruction and no change of status touches them. -/
theorem constructionArgumentsNeverChange : Obligations.ConstructionArgumentsNeverChange := by
  intro s t h
  have hctrl := step_frame h (·.ctrl) (fun _ => rfl) (effect_ctrl · s)
  have hsize := step_frame h (·.mem.size) (fun _ => rfl) (effect_memSize · s)
  have hparams := step_frame h (·.params) (fun _ => rfl) (effect_params · s)
  exact ⟨hctrl, hsize, hparams⟩

/-! ## The status and the pc after an instruction -/

theorem ne_halt_of_strided {i : Instr} (h : i.strided = true) : i ≠ .halt := by
  rintro rfl
  cases h

theorem ne_halt_of_dataAccess {i : Instr} {s : State} {acc : DataAccess} (h : dataAccess i s = some acc) :
    i ≠ .halt := by
  rintro rfl
  cases h

theorem not_accessible_of_accessFault {s : State} {kind : AccessKind} {a : Word} {n : Nat} {f : Fault}
    (h : s.accessFault kind a n = some f) : ¬ s.accessible a n := by
  rw [← accessFault_eq_none s kind, h]
  exact Option.some_ne_none f

/-- Settles O44: each of the three ways an instruction ends makes exactly one of the statuses' conditions true, halt
being among the instructions that have their effect. -/
theorem statusAfterExecution : Obligations.StatusAfterExecution := by
  intro i s t hs h
  cases exec_cases h with
  | refused hi => exact ⟨by simp [ne_halt_of_strided hi], iff_of_true ⟨_, _, rfl⟩ hi, by simp [hi]⟩
  | faulted hi acc ha f hf =>
    have hna := not_accessible_of_accessFault hf
    exact ⟨by simp [ne_halt_of_dataAccess ha], by simp [hi], iff_of_true ⟨f, rfl⟩ ⟨hi, acc, ha, hna⟩⟩
  | done hi ha =>
    have hno : ¬ ∃ acc, dataAccess i s = some acc ∧ ¬ s.accessible acc.addr acc.size :=
      fun ⟨acc, hacc, hna⟩ => hna (ha acc hacc)
    rw [effect_status, hs]
    by_cases hh : i = .halt
    · rw [if_pos hh]
      exact ⟨iff_of_true rfl hh, by simp [hi], by simp [hno]⟩
    · rw [if_neg hh]
      exact ⟨by simp [hh], by simp [hi], by simp [hno]⟩

/-- An effect that is no control transfer and no halt advances the pc (R27). -/
theorem effect_pc {i : Instr} (s : State) (h : i.transfersControl = false) (hh : i ≠ .halt) :
    (effect i s).pc = s.pc + 4 := by
  cases i with
  | beq | bne | blt | bge | jal | jalr => cases h
  | halt => exact absurd rfl hh
  | _ => rfl

/-- Settles O51: an instruction that leaves the Core Running had its effect, and was no halt. -/
theorem sequentialPc : Obligations.SequentialPc := by
  intro i s t h hs ht hc
  cases exec_cases h with
  | refused => cases ht
  | faulted => cases ht
  | done =>
    refine effect_pc s hc fun hh => ?_
    rw [effect_status, if_pos hh] at ht
    cases ht

/-! ## x0 -/

/-- Settles O18: x0 is read and written by the rules of every register (R21). -/
theorem zeroRegisterIsOrdinary : Obligations.ZeroRegisterIsOrdinary := by
  intro s v imm rd rs1 imm12
  have hread : (s.writeX 0 v).readX 0 = v := readX_writeX_same s 0 v
  have haddi : exec (.addi rd 0 imm12) (s.writeX 0 v) =
      .next (Spec.retireX (s.writeX 0 v) rd ((s.writeX 0 v).readX 0 + BitVec.ofInt 32 imm12.toInt)) := rfl
  rw [hread] at haddi
  exact ⟨hread, haddi, ⟨_, rfl, readX_writeX_same s 0 _⟩, ⟨_, rfl, readX_writeX_same s 0 _⟩⟩

/-! ## The memory of a draw -/

@[simp] theorem writeCells_size (mem : Memory) (draw : List Host.Cell) : (mem.writeCells draw).size = mem.size := by
  induction draw with
  | nil => rfl
  | cons c rest ih => rw [Memory.writeCells]; split <;> simp [ih]

theorem writeCells_wf (mem : Memory) (draw : List Host.Cell) (h : mem.wf) : (mem.writeCells draw).wf := by
  induction draw with
  | nil => exact h
  | cons c rest ih =>
    rw [Memory.writeCells]
    split
    · exact writeByte_wf _ _ _ ih (by simpa)
    · exact ih

/-- A memory that lists nothing reads, inside memory, as the draw that is written to it. -/
theorem readByte_writeCells_empty (n : Nat) (draw : List Host.Cell) (a : Nat) (ha : a < n) :
    (Memory.writeCells { size := n, cells := [] } draw).readByte a = Cells.lookup draw a := by
  induction draw with
  | nil => rfl
  | cons c rest ih =>
    obtain ⟨k, v⟩ := c
    rw [Memory.writeCells, Cells.lookup]
    split
    next => simp only [readByte_writeByte, ih, eq_comm]
    next hk => rw [ih, if_neg fun e : k = a => hk (e ▸ ha)]

/-- The draw that gives each address below `n` the byte assigned to it. -/
def drawOf (byte : Nat → Byte) (n : Nat) : List Host.Cell := (List.range n).map fun a => (a, byte a)

/-- Cells made from a list of addresses read as assigned at each of them. -/
theorem lookup_map_mk (byte : Nat → Byte) (addrs : List Nat) (a : Nat) (h : a ∈ addrs) :
    Cells.lookup (addrs.map fun k => (k, byte k)) a = byte a := by
  induction addrs with
  | nil => cases h
  | cons k rest ih =>
    rw [List.map_cons, Cells.lookup]
    by_cases hk : k = a
    · rw [if_pos hk, hk]
    · rw [if_neg hk]
      exact ih ((List.mem_cons.mp h).resolve_left (Ne.symm hk))

theorem lookup_drawOf (byte : Nat → Byte) {n a : Nat} (h : a < n) : Cells.lookup (drawOf byte n) a = byte a :=
  lookup_map_mk byte _ a (List.mem_range.mpr h)

/-! ## Construction -/

section construction

variable {image : List Byte} {ctrl : ControlRegister} {memSize : Nat} {draw : List Host.Cell} {params : Params}
  {s : State}

/-- Construction answers a Core exactly when its sizes fit (R330), and this one (R34). -/
theorem coreNew_eq_some_iff : coreNew image ctrl memSize draw params = some s ↔
    (image.length ≤ memSize ∧ memSize ≤ 2 ^ 31) ∧
    s = {
      x := (Vector.replicate 32 0#32).set 2 ctrl.stackPointer
      m := Vector.replicate 16 Tile.zero
      pc := ctrl.startAddress
      mem := (Memory.writeCells { size := memSize, cells := [] } draw).writeBytes 0 image
      ctrl := ctrl
      status := .running
      params := params } := by
  rw [coreNew, Option.ite_none_right_eq_some, Option.some.injEq, eq_comm (a := s)]

/-- The scalar registers of R34: x2 is the stack pointer, every other one is 0. -/
theorem coreNew_readX (h : coreNew image ctrl memSize draw params = some s) (r : XReg) :
    s.readX r = if r = 2 then ctrl.stackPointer else 0 := by
  obtain ⟨_, rfl⟩ := coreNew_eq_some_iff.mp h
  simp [State.readX, Vector.getElem_set, Fin.ext_iff, eq_comm]

theorem coreNew_elem (h : coreNew image ctrl memSize draw params = some s) (q : MReg) (r c : Fin 4) :
    (s.readM q).elem r c = 0 := by
  obtain ⟨_, rfl⟩ := coreNew_eq_some_iff.mp h
  simp [State.readM, Tile.zero, Tile.elem]

theorem coreNew_readByte_image (h : coreNew image ctrl memSize draw params = some s) (a : Nat)
    (ha : a < image.length) : s.readByte a = image[a] := by
  obtain ⟨_, rfl⟩ := coreNew_eq_some_iff.mp h
  have hin := readByte_writeBytes_inside (Memory.writeCells { size := memSize, cells := [] } draw) 0 image a ha
  rwa [Nat.zero_add] at hin

/-- The bytes above the image are the draw's (notes/assumptions/2.md). -/
theorem coreNew_readByte_above (h : coreNew image ctrl memSize draw params = some s) (a : Nat)
    (ha : image.length ≤ a) (hm : a < memSize) : s.readByte a = Cells.lookup draw a := by
  obtain ⟨_, rfl⟩ := coreNew_eq_some_iff.mp h
  have hout := readByte_writeBytes_outside (Memory.writeCells { size := memSize, cells := [] } draw) 0 image a
    (by omega)
  exact hout.trans (readByte_writeCells_empty memSize draw a hm)

/-- A constructed Core's memory is canonical, and a Running status asks for nothing. -/
theorem coreNew_inv (h : coreNew image ctrl memSize draw params = some s) : s.Inv := by
  obtain ⟨⟨hi, hm⟩, rfl⟩ := coreNew_eq_some_iff.mp h
  have hempty : Memory.wf { size := memSize, cells := [] } := ⟨List.Pairwise.nil, by simp, hm⟩
  exact ⟨writeBytes_wf _ _ _ (writeCells_wf _ draw hempty) (by simpa), trivial⟩

end construction

/-- Settles O52, each piece of state by its own lemma about construction. -/
theorem constructionValues : Obligations.ConstructionValues := by
  intro image ctrl memSize draw params s h
  have hx := coreNew_readX h
  have helem := coreNew_elem h
  have himage := coreNew_readByte_image h
  have habove := coreNew_readByte_above h
  have hinv := coreNew_inv h
  obtain ⟨_, rfl⟩ := coreNew_eq_some_iff.mp h
  exact ⟨rfl, hx 2, fun r hr => (hx r).trans (if_neg hr), helem, himage, habove, by simp, rfl, rfl, rfl, hinv⟩

/-- Settles O54: the draw lists the assigned byte of every address inside memory. -/
theorem constructionDrawsAnyBytes : Obligations.ConstructionDrawsAnyBytes := by
  intro image ctrl memSize params byte hi hm
  have hnew := coreNew_eq_some_iff (ctrl := ctrl) (draw := drawOf byte memSize) (params := params) |>.mpr
    ⟨⟨hi, hm⟩, rfl⟩
  exact ⟨_, _, hnew, fun a ha hlt => (coreNew_readByte_above hnew a ha hlt).trans (lookup_drawOf byte hlt)⟩

/-- Settles O55: an empty image and an empty draw write no byte, and the sizes fit. -/
theorem resetIsAConstruction : Obligations.ResetIsAConstruction :=
  coreNew_eq_some_iff.mpr ⟨⟨Nat.zero_le _, le_rfl⟩, rfl⟩

/-- Settles O46: the reset state is a construction, and every constructed Core meets the invariant. -/
theorem resetMeetsInvariant : Obligations.ResetMeetsInvariant := coreNew_inv resetIsAConstruction

end Sys2Proof.Machine

/-! # Memory: what is loaded, fetched and left alone after a store

Proofs for the statements about spec/20_memory.md. The loads follow from one lemma on two neighbouring elements of a
tile (`loadTile_elem_append_elem`) and one read-after-write lemma each for words and tiles; a completed instruction had
its effect (`eq_effect_of_running`). -/

namespace Sys2Proof.Machine

/-! ## Loads after stores -/

theorem loadWord_storeWord (mem : Memory) (a : Nat) (v : Word) : (mem.storeWord a v).loadWord a = v := by
  have hbyte := readByte_writeBytes_inside mem a (wordBytes v)
  have hfirst : (mem.writeBytes a (wordBytes v)).readByte a = (wordBytes v)[0] := hbyte 0 (by simp)
  calc (mem.storeWord a v).loadWord a
      = v.extractLsb' 24 8 ++ v.extractLsb' 16 8 ++ v.extractLsb' 8 8 ++ v.extractLsb' 0 8 := by
        rw [Memory.loadWord, Memory.storeWord, hbyte 3 (by simp), hbyte 2 (by simp), hbyte 1 (by simp),
          hfirst]
        rfl
    _ = v := word_slices v

/-- The two bytes of element (r, c) stand at twice its row-major number (R258). -/
theorem tileBytes_getElem (t : Tile) (r c : Fin 4) :
    (tileBytes t)[2 * (4 * r.val + c.val)]'(by simp; omega) = (t.elem r c).extractLsb' 0 8 ∧
    (tileBytes t)[2 * (4 * r.val + c.val) + 1]'(by simp; omega) = (t.elem r c).extractLsb' 8 8 := by
  fin_cases r <;> fin_cases c <;> exact ⟨rfl, rfl⟩

theorem loadHalf_storeTile (mem : Memory) (a : Nat) (t : Tile) (r c : Fin 4) :
    (mem.storeTile a t).loadHalf (a + 2 * (4 * r.val + c.val)) = t.elem r c := by
  obtain ⟨hlow, hhigh⟩ := tileBytes_getElem t r c
  have hbyte := readByte_writeBytes_inside mem a (tileBytes t)
  rw [Memory.loadHalf, Memory.storeTile, Nat.add_assoc, hbyte _ (by simp; omega), hbyte _ (by simp; omega), hlow,
    hhigh]
  exact half_slices _

theorem loadTile_storeTile (mem : Memory) (a : Nat) (t : Tile) : (mem.storeTile a t).loadTile a = t := by
  apply Tile.eq_of_elem
  intro r c
  rw [Memory.loadTile, Tile.elem_ofFn, loadHalf_storeTile]

/-- Settles O12, by the read-after-write lemmas of words and of tiles. -/
theorem loadAfterStore : Obligations.LoadAfterStore :=
  fun mem a v t => ⟨loadWord_storeWord mem a v, loadTile_storeTile mem a t⟩

/-- Two neighbouring elements of a row in memory are the word at the first one's address, the first in bits 15..0
(R56). -/
theorem loadTile_elem_append_elem (mem : Memory) {a x : Nat} {r c c' : Fin 4} (hc : c'.val = c.val + 1)
    (hx : x = a + 2 * (4 * r.val + c.val)) :
    (mem.loadTile a).elem r c' ++ (mem.loadTile a).elem r c = (mem.loadWord x : BitVec (16 + 16)) := by
  have hnext : a + 2 * (4 * r.val + c'.val) = x + 2 := by omega
  rw [loadWord_halves, Memory.loadTile, Tile.elem_ofFn, Tile.elem_ofFn, hnext, ← hx]

/-- Two neighbouring elements of a stored tile are the word at the first one's address. -/
theorem loadWord_storeTile (mem : Memory) (t : Tile) {a x : Nat} {r c c' : Fin 4} (hc : c'.val = c.val + 1)
    (hx : x = a + 2 * (4 * r.val + c.val)) :
    (mem.storeTile a t).loadWord x = t.elem r c' ++ t.elem r c := by
  rw [← loadTile_elem_append_elem _ hc hx, loadTile_storeTile]

/-- A word stored over two neighbouring elements of a tile is those elements of the tile load. -/
theorem loadTile_storeWord (mem : Memory) (v : Word) {a x : Nat} {r c c' : Fin 4} (hc : c'.val = c.val + 1)
    (hx : x = a + 2 * (4 * r.val + c.val)) :
    ((mem.storeWord x v).loadTile a).elem r c' ++ ((mem.storeWord x v).loadTile a).elem r c
      = (v : BitVec (16 + 16)) := by
  rw [loadTile_elem_append_elem _ hc hx, loadWord_storeWord]

/-- Settles O11: the words of a row are its elements 0 and 1, and its elements 2 and 3. -/
theorem mixedWidthAccess : Obligations.MixedWidthAccess := by
  intro mem a t r v
  have hfirst : a + 8 * r.val = a + 2 * (4 * r.val + (0 : Fin 4).val) := by omega
  have hsecond : a + 8 * r.val + 4 = a + 2 * (4 * r.val + (2 : Fin 4).val) := by omega
  exact ⟨loadWord_storeTile mem t rfl hfirst, loadWord_storeTile mem t rfl hsecond,
    loadTile_storeWord mem v rfl hfirst, loadTile_storeWord mem v rfl hsecond⟩

/-! ## The canonical form -/

/-- A listed cell of a sorted list is what its address reads as. -/
theorem Cells.lookup_of_mem {cells : List Host.Cell} (hs : sorted cells) {c : Host.Cell} (hc : c ∈ cells) :
    lookup cells c.1 = c.2 := by
  induction cells with
  | nil => cases hc
  | cons d rest ih =>
    obtain ⟨hd, hrest⟩ := (sorted_cons d rest).mp hs
    rw [lookup]
    rcases List.mem_cons.mp hc with rfl | hc
    · exact if_pos rfl
    · rw [if_neg (hd c hc).ne, ih hrest hc]

/-- An address that does not read as an unlisted one is listed. -/
theorem Cells.mem_of_lookup_ne {cells : List Host.Cell} {a : Nat} (h : lookup cells a ≠ unlistedByte) :
    (a, lookup cells a) ∈ cells := by
  induction cells with
  | nil => exact absurd rfl h
  | cons d rest ih =>
    obtain ⟨k, b⟩ := d
    rw [lookup] at h ⊢
    by_cases hk : k = a
    · rw [if_pos hk, hk]
      exact List.mem_cons_self
    · rw [if_neg hk] at h ⊢
      exact List.mem_cons_of_mem _ (ih h)

/-- The cells of a memory in canonical form are the addresses that do not read as an unlisted one, each with its
byte. -/
theorem mem_cells_iff {mem : Memory} (h : mem.wf) (c : Host.Cell) :
    c ∈ mem.cells ↔ mem.readByte c.1 = c.2 ∧ c.2 ≠ unlistedByte := by
  obtain ⟨hsorted, hcells, _⟩ := h
  constructor
  · intro hc
    exact ⟨Cells.lookup_of_mem hsorted hc, (hcells c hc).1⟩
  · rintro ⟨hread, hne⟩
    have hmem := Cells.mem_of_lookup_ne (cells := mem.cells) (a := c.1) (hread.trans_ne hne)
    rwa [show Cells.lookup mem.cells c.1 = c.2 from hread] at hmem

/-- Settles O13: the reads decide which cells are listed, and a strictly sorted list is decided by its members. -/
theorem canonicalMemoryIsDeterminedByReads : Obligations.CanonicalMemoryIsDeterminedByReads := by
  intro mem mem' h h' hsize hreads
  have hmem (c : Host.Cell) : c ∈ mem.cells ↔ c ∈ mem'.cells := by
    rw [mem_cells_iff h, mem_cells_iff h', hreads]
  obtain ⟨hsorted, _⟩ := h
  obtain ⟨hsorted', _⟩ := h'
  have : Std.Irrefl fun c d : Host.Cell => c.1 < d.1 := ⟨fun c => lt_irrefl c.1⟩
  have hcells : mem.cells = mem'.cells := hsorted.eq_of_mem_iff hsorted' hmem
  exact congrArg₂ Memory.mk hsize hcells

/-! ## A fetch after a store -/

/-- An instruction that leaves the Core Running had its effect, and the access it made, if any, was allowed. -/
theorem eq_effect_of_running {i : Instr} {s t : State} (h : exec i s = .next t) (ht : t.status = .running) :
    t = effect i s ∧ ∀ acc, dataAccess i s = some acc → s.accessible acc.addr acc.size := by
  cases exec_cases h with
  | refused => cases ht
  | faulted => cases ht
  | done _ ha => exact ⟨rfl, ha⟩

/-- An effect does not change which addresses a fetch may read, so a fetch at one of them answers the word there. -/
theorem fetch_setPc_effect {i : Instr} {s : State} {a : Word} (h : s.accessible a 4) :
    ((effect i s).setPc a).fetch = .ok ((effect i s).mem.loadWord a.toNat) := by
  refine fetch_accessible (s := (effect i s).setPc a) ?_
  simpa [State.accessible] using h

/-- Word `k` of the 32 bytes a tile access may use is a word an access may use, and its address does not wrap. -/
theorem accessible_word_of_tile {s : State} {a : Word} (hsize : s.mem.size ≤ 2 ^ 31) (h : s.accessible a 32)
    (k : Fin 8) : (a + BitVec.ofNat 32 (4 * k.val)).toNat = a.toNat + 4 * k.val ∧
      s.accessible (a + BitVec.ofNat 32 (4 * k.val)) 4 := by
  obtain ⟨halign, hbound⟩ := h
  have hnat : (a + BitVec.ofNat 32 (4 * k.val)).toNat = a.toNat + 4 * k.val := by
    rw [BitVec.toNat_add, BitVec.toNat_ofNat]
    omega
  exact ⟨hnat, by omega, by omega⟩

/-- The first part of R63: a fetch at the address of a completed sw. -/
theorem fetch_after_sw {rs2 rs1 : XReg} {imm : BitVec 12} {s t : State} (h : exec (.sw rs2 rs1 imm) s = .next t)
    (ht : t.status = .running) : (t.setPc (wordAddress s rs1 imm)).fetch = .ok (s.readX rs2) := by
  obtain ⟨rfl, ha⟩ := eq_effect_of_running h ht
  rw [fetch_setPc_effect (ha _ rfl)]
  exact congrArg _ (loadWord_storeWord _ _ _)

/-- The second part of R63: a fetch at a word of the tile of a completed st.m. -/
theorem fetch_after_stm {md : MReg} {rs1 : XReg} {imm : BitVec 11} {s t : State} (k : Fin 8) (hwf : s.mem.wf)
    (h : exec (.stm md rs1 0 imm) s = .next t) (ht : t.status = .running) :
    (t.setPc (tileAddress s rs1 imm + BitVec.ofNat 32 (4 * k.val))).fetch =
      .ok ((s.readM md).elem ⟨k.val / 2, by omega⟩ ⟨k.val % 2 * 2 + 1, by omega⟩
        ++ (s.readM md).elem ⟨k.val / 2, by omega⟩ ⟨k.val % 2 * 2, by omega⟩) := by
  obtain ⟨rfl, ha⟩ := eq_effect_of_running h ht
  obtain ⟨_, _, hsize⟩ := hwf
  obtain ⟨hnat, hword⟩ := accessible_word_of_tile hsize (ha _ rfl) k
  have hplace : 4 * k.val = 2 * (4 * (k.val / 2) + k.val % 2 * 2) := by omega
  rw [fetch_setPc_effect hword, hnat]
  exact congrArg _ (loadWord_storeTile s.mem (s.readM md) rfl (congrArg _ hplace))

/-- Settles O14: the model's effective addresses are those of the statement. -/
theorem storeIsSeenByFetch : Obligations.StoreIsSeenByFetch :=
  ⟨fun _ _ _ _ _ _ h ht => fetch_after_sw h ht, fun _ _ _ _ _ k _ hwf h ht => fetch_after_stm k hwf h ht⟩

/-! ## The frame of memory -/

/-- Settles O49: a refusal and a fault change only the status, and an effect writes only the bytes stored to. -/
theorem memoryFrame : Obligations.MemoryFrame := by
  intro i s t a h ha
  exact (exec_cases h).frame (·.readByte a) (fun _ => rfl) (effect_readByte i s a ha)

end Sys2Proof.Machine

/-! # Encoding: decode and encode agree, the opcode table, the bitfield codec, and the pseudo-instructions

Proofs for the statements about spec/30_encoding.md. Decoding after encoding reads the fields of each format's word back
(`Format.r_fields` to `Format.matrixMem_fields`); encoding after decoding puts a word's fields together again
(`reg_parts` to `tile_parts`). The codec's value is computed byte by byte (`unsignedValueOf_bitsOf_cons`), and the
pseudo-instructions run on one lemma for each instruction they expand to. -/

namespace Sys2Proof

/-! ## The fields of a format's word -/

namespace Format

variable (f7 opc : BitVec 7) (f3 : BitVec 3) (rd rs1 rs2 : XReg)

/-- R85. -/
theorem r_fields : Field.opcode (r f7 rs2 rs1 f3 rd opc) = opc ∧ Field.rd (r f7 rs2 rs1 f3 rd opc) = rd ∧
    Field.funct3 (r f7 rs2 rs1 f3 rd opc) = f3 ∧ Field.rs1 (r f7 rs2 rs1 f3 rd opc) = rs1 ∧
    Field.rs2 (r f7 rs2 rs1 f3 rd opc) = rs2 ∧ Field.funct7 (r f7 rs2 rs1 f3 rd opc) = f7 := by
  simpa using reg_fields f7.isLt f3.isLt opc.isLt (r_toNat f7 opc f3 rd rs1 rs2)

/-- R86. -/
theorem i_fields (imm : BitVec 12) : Field.opcode (i imm rs1 f3 rd opc) = opc ∧ Field.rd (i imm rs1 f3 rd opc) = rd ∧
    Field.funct3 (i imm rs1 f3 rd opc) = f3 ∧ Field.rs1 (i imm rs1 f3 rd opc) = rs1 ∧
    Field.immI (i imm rs1 f3 rd opc) = imm := by
  simpa using imm_fields f3.isLt opc.isLt (i_toNat opc f3 rd rs1 imm)

/-- R101. -/
theorem i_shift_fields (shamt : BitVec 5) : Field.funct7 (i (f7 ++ shamt) rs1 f3 rd opc) = f7 ∧
    Field.shamt (i (f7 ++ shamt) rs1 f3 rd opc) = shamt := by
  simpa using shift_fields f7.isLt f3.isLt opc.isLt (shift_toNat f7 opc f3 rd rs1 shamt)

/-- R87. -/
theorem s_fields (imm : BitVec 12) : Field.opcode (s imm rs2 rs1 f3 opc) = opc ∧
    Field.funct3 (s imm rs2 rs1 f3 opc) = f3 ∧ Field.rs1 (s imm rs2 rs1 f3 opc) = rs1 ∧
    Field.rs2 (s imm rs2 rs1 f3 opc) = rs2 ∧ Field.immS (s imm rs2 rs1 f3 opc) = imm := by
  simpa using store_fields f3.isLt opc.isLt (s_toNat opc f3 rs1 rs2 imm)

/-- R88. -/
theorem b_fields (imm : BitVec 13) (he : evenOffset imm = true) : Field.opcode (b imm rs2 rs1 f3 opc) = opc ∧
    Field.funct3 (b imm rs2 rs1 f3 opc) = f3 ∧ Field.rs1 (b imm rs2 rs1 f3 opc) = rs1 ∧
    Field.rs2 (b imm rs2 rs1 f3 opc) = rs2 ∧ Field.immB (b imm rs2 rs1 f3 opc) = imm := by
  simpa using branch_fields f3.isLt opc.isLt he (b_toNat opc f3 rs1 rs2 imm)

/-- R89. -/
theorem u_fields (imm : BitVec 20) : Field.opcode (u imm rd opc) = opc ∧ Field.rd (u imm rd opc) = rd ∧
    Field.immU (u imm rd opc) = imm := by
  simpa using upper_fields opc.isLt (u_toNat opc rd imm)

/-- R90. -/
theorem j_fields (imm : BitVec 21) (he : evenOffset imm = true) : Field.opcode (j imm rd opc) = opc ∧
    Field.rd (j imm rd opc) = rd ∧ Field.immJ (j imm rd opc) = imm := by
  simpa using jump_fields opc.isLt he (j_toNat opc rd imm)

/-- R92. -/
theorem matrixAlu_fields (rc rb ra rd : MReg) : Field.opcode (matrixAlu rc rb ra rd opc) = opc ∧
    Field.gemmReserved (matrixAlu rc rb ra rd opc) = 0#9 ∧ Field.gemmRd (matrixAlu rc rb ra rd opc) = rd ∧
    Field.gemmRa (matrixAlu rc rb ra rd opc) = ra ∧ Field.gemmRb (matrixAlu rc rb ra rd opc) = rb ∧
    Field.gemmRc (matrixAlu rc rb ra rd opc) = rc := by
  simpa using gemm_fields (reserved := 0) (by decide) opc.isLt (by simpa using matrixAlu_toNat opc rc rb ra rd)

/-- R93. -/
theorem matrixMem_fields (imm : BitVec 11) (stride : BitVec 5) (rd : MReg) :
    Field.opcode (matrixMem imm stride rs1 rd opc) = opc ∧ Field.tileRd (matrixMem imm stride rs1 rd opc) = rd ∧
    Field.tileRs1 (matrixMem imm stride rs1 rd opc) = rs1 ∧
    Field.tileStride (matrixMem imm stride rs1 rd opc) = stride ∧
    Field.immM (matrixMem imm stride rs1 rd opc) = imm := by
  simpa using tile_fields opc.isLt (matrixMem_toNat opc rs1 imm stride rd)

end Format

/-! ## Decoding after encoding -/

/-- Settles O26: the word of each instruction has its format's fields, so the opcode selects its table and the funct
fields its row. -/
theorem decodeOfEncode : Obligations.DecodeOfEncode := by
  intro i hi
  cases i with
  | add | sub | xor | or | and | sll | srl | sra | slt | sltu | mul | mov =>
    rw [encode, decode_reg (Format.r_fields ..).1]
    simp [decodeReg, Format.r_fields, movFunct7]
  | addi | xori | ori | andi | slti | sltui =>
    rw [encode, decode_imm (Format.i_fields ..).1]
    simp [decodeImm, Format.i_fields]
  | slli | srli | srai =>
    rw [encode, decode_imm (Format.i_fields ..).1]
    simp [decodeImm, Format.i_fields, Format.i_shift_fields]
  | lui => rw [encode, decode_lui] <;> simp [Format.u_fields]
  | lw => rw [encode, decode_load] <;> simp [Format.i_fields]
  | sw => rw [encode, decode_store] <;> simp [Format.s_fields]
  | beq | bne | blt | bge =>
    rw [encode, decode_branch (Format.b_fields _ _ _ _ _ hi).1]
    simp [decodeBranch, Format.b_fields _ _ _ _ _ hi]
  | jal => rw [encode, decode_jal] <;> simp [Format.j_fields _ _ _ hi]
  | jalr => rw [encode, decode_jalr] <;> simp [Format.i_fields]
  | gemm => rw [encode, decode_gemm] <;> simp [opcGemm, Format.matrixAlu_fields]
  | ldm => rw [encode, decode_ldm] <;> simp [opcLdm, Format.matrixMem_fields]
  | stm => rw [encode, decode_stm] <;> simp [opcStm, Format.matrixMem_fields]
  | halt => rfl

/-! ## Encoding after decoding -/

section tables

variable {w : Word} {i : Instr}

/-- R103: each row's funct fields are the ones its instruction encodes; the last funct3, and's, is what the others
leave. -/
theorem encode_of_decodeReg (ho : Field.opcode w = 0x33#7) (h : decodeReg w = .ok i) :
    encode i = w ∧ i.wellFormed = true := by
  have hw := reg_parts w
  simp only [decodeReg] at h
  split_ifs at h
  case' neg => have hlast : Field.funct3 w = 7#3 := by bv_omega
  all_goals
    cases h
    simp only [*] at hw
    exact ⟨hw, rfl⟩

/-- R104: the shift rows read the immediate field as funct7 and shift amount; the others read it whole. -/
theorem encode_of_decodeImm (ho : Field.opcode w = 0x13#7) (h : decodeImm w = .ok i) :
    encode i = w ∧ i.wellFormed = true := by
  have hw := imm_parts w
  simp only [decodeImm] at h
  split_ifs at h
  all_goals cases h
  -- the six rows without funct7, then slli, then srli and srai
  iterate 6
    simp only [*] at hw
    exact ⟨hw, rfl⟩
  all_goals rw [← immI_parts] at hw
  · simp only [*] at hw
    exact ⟨hw, rfl⟩
  all_goals
    have hlast : Field.funct3 w = 5#3 := by bv_omega
    simp only [*] at hw
    exact ⟨hw, rfl⟩

/-- R106. -/
theorem encode_of_decodeBranch (ho : Field.opcode w = 0x63#7) (h : decodeBranch w = .ok i) :
    encode i = w ∧ i.wellFormed = true := by
  have hw := branch_parts w
  simp only [decodeBranch] at h
  split_ifs at h
  all_goals
    cases h
    simp only [*] at hw
    exact ⟨hw, immB_even w⟩

end tables

/-- Settles O27, opcode by opcode in the order of R102: the word is made of the fields the instruction is read from. -/
theorem encodeOfDecode : Obligations.EncodeOfDecode := by
  intro w i h
  by_cases hreg : Field.opcode w = 0x33#7
  · exact encode_of_decodeReg hreg (decode_reg hreg ▸ h)
  by_cases himm : Field.opcode w = 0x13#7
  · exact encode_of_decodeImm himm (decode_imm himm ▸ h)
  by_cases hload : Field.opcode w = 0x03#7
  · rw [decode_load hload] at h
    split_ifs at h with h3
    cases h
    exact ⟨by rw [encode, ← h3, ← hload, imm_parts], rfl⟩
  by_cases hstore : Field.opcode w = 0x23#7
  · rw [decode_store hstore] at h
    split_ifs at h with h3
    cases h
    exact ⟨by rw [encode, ← h3, ← hstore, store_parts], rfl⟩
  by_cases hbranch : Field.opcode w = 0x63#7
  · exact encode_of_decodeBranch hbranch (decode_branch hbranch ▸ h)
  by_cases hlui : Field.opcode w = 0x37#7
  · cases (decode_lui hlui).symm.trans h
    exact ⟨by rw [encode, ← hlui, upper_parts], rfl⟩
  by_cases hjal : Field.opcode w = 0x6F#7
  · cases (decode_jal hjal).symm.trans h
    exact ⟨by rw [encode, ← hjal, jump_parts], immJ_even w⟩
  by_cases hjalr : Field.opcode w = 0x67#7
  · rw [decode_jalr hjalr] at h
    split_ifs at h with h3
    cases h
    exact ⟨by rw [encode, ← h3, ← hjalr, imm_parts], rfl⟩
  by_cases hgemm : Field.opcode w = opcGemm
  · rw [decode_gemm hgemm] at h
    split_ifs at h with hres
    cases h
    exact ⟨by rw [encode, ← hgemm, gemm_parts w hres], rfl⟩
  by_cases hldm : Field.opcode w = opcLdm
  · cases (decode_ldm hldm).symm.trans h
    exact ⟨by rw [encode, ← hldm, tile_parts], rfl⟩
  by_cases hstm : Field.opcode w = opcStm
  · cases (decode_stm hstm).symm.trans h
    exact ⟨by rw [encode, ← hstm, tile_parts], rfl⟩
  · simp only [decode, *, if_false] at h
    split_ifs at h with hs
    cases h
    exact ⟨hs.symm, rfl⟩

/-! ## The opcode table -/

/-- The per-instruction lemmas of the family FixedBits, for every instruction. -/
theorem Laws.FixedBits.statement (i : Instr) : Statement i := by
  cases i
  exacts [add .., sub .., xor .., or .., and .., sll .., srl .., sra .., slt .., sltu .., mul .., mov .., addi ..,
    xori .., ori .., andi .., slli .., srli .., srai .., slti .., sltui .., lui .., lw .., sw .., beq .., bne ..,
    blt .., bge .., jal .., jalr .., gemm .., ldm .., stm .., halt]

section rows

variable {row : OpcodeRow} {w : Word}

/-- Where a row's mask has every bit of a field, its words have the field of its pattern. -/
theorem extract_eq_of_matchesWord (h : row.matchesWord w = true) {lo len : Nat}
    (hm : row.mask.extractLsb' lo len = BitVec.allOnes len) :
    w.extractLsb' lo len = row.pattern.extractLsb' lo len := by
  rw [← beq_iff_eq.mp h, BitVec.extractLsb'_and, hm, BitVec.and_allOnes]

theorem opcode_eq_of_matchesWord (h : row.matchesWord w = true) (hm : Field.opcode row.mask = BitVec.allOnes 7) :
    Field.opcode w = Field.opcode row.pattern := extract_eq_of_matchesWord h hm

theorem funct3_eq_of_matchesWord (h : row.matchesWord w = true) (hm : Field.funct3 row.mask = BitVec.allOnes 3) :
    Field.funct3 w = Field.funct3 row.pattern := extract_eq_of_matchesWord h hm

theorem funct7_eq_of_matchesWord (h : row.matchesWord w = true) (hm : Field.funct7 row.mask = BitVec.allOnes 7) :
    Field.funct7 w = Field.funct7 row.pattern := extract_eq_of_matchesWord h hm

theorem rs2_eq_of_matchesWord (h : row.matchesWord w = true)
    (hm : row.mask.extractLsb' 20 5 = BitVec.allOnes 5) : Field.rs2 w = Field.rs2 row.pattern :=
  congrArg BitVec.toFin (extract_eq_of_matchesWord h hm)

/-- The words of the R rows decode to their mnemonics (R103); the mask of mov's row holds the rs2 field too. -/
theorem decode_map_mnemonic_reg (hrow : row ∈ opcodeRowsReg) (h : row.matchesWord w = true) :
    (decode w).map Instr.mnemonic = .ok row.mnemonic := by
  have hmask : ∀ row ∈ opcodeRowsReg, Field.opcode row.mask = BitVec.allOnes 7 ∧
      Field.funct3 row.mask = BitVec.allOnes 3 ∧ Field.funct7 row.mask = BitVec.allOnes 7 ∧
      Field.opcode row.pattern = 0x33#7 := by decide
  obtain ⟨m, m3, m7, ho⟩ := hmask row hrow
  have h3 := funct3_eq_of_matchesWord h m3
  have h7 := funct7_eq_of_matchesWord h m7
  rw [decode_reg ((opcode_eq_of_matchesWord h m).trans ho), decodeReg, h3, h7]
  fin_cases hrow
  -- the rows before mov, then mov
  iterate 11 rfl
  rw [rs2_eq_of_matchesWord h (by rfl)]
  rfl

/-- The words of the I rows decode to their mnemonics (R104); the masks of the shift rows hold funct7 too. -/
theorem decode_map_mnemonic_imm (hrow : row ∈ opcodeRowsImm) (h : row.matchesWord w = true) :
    (decode w).map Instr.mnemonic = .ok row.mnemonic := by
  have hmask : ∀ row ∈ opcodeRowsImm, Field.opcode row.mask = BitVec.allOnes 7 ∧
      Field.funct3 row.mask = BitVec.allOnes 3 ∧ Field.opcode row.pattern = 0x13#7 := by decide
  obtain ⟨m, m3, ho⟩ := hmask row hrow
  have h3 := funct3_eq_of_matchesWord h m3
  rw [decode_imm ((opcode_eq_of_matchesWord h m).trans ho), decodeImm, h3]
  fin_cases hrow
  -- the six rows without funct7, then the shifts
  iterate 6 rfl
  all_goals
    rw [funct7_eq_of_matchesWord h (by rfl)]
    rfl

/-- The words of the other rows decode to their mnemonics (R105 to R107, R280). -/
theorem decode_map_mnemonic_rest (hrow : row ∈ opcodeRowsRest) (h : row.matchesWord w = true) :
    (decode w).map Instr.mnemonic = .ok row.mnemonic := by
  have hmask : ∀ row ∈ opcodeRowsRest, Field.opcode row.mask = BitVec.allOnes 7 := by decide
  have ho := opcode_eq_of_matchesWord h (hmask row hrow)
  fin_cases hrow
  -- lw, sw
  · rw [decode_load ho, funct3_eq_of_matchesWord h rfl]; rfl
  · rw [decode_store ho, funct3_eq_of_matchesWord h rfl]; rfl
  -- beq, bne, blt, bge
  iterate 4
    rw [decode_branch ho, decodeBranch, funct3_eq_of_matchesWord h rfl]
    rfl
  -- lui, jal, jalr, gemm, ld.m, st.m, halt
  · rw [decode_lui ho]; rfl
  · rw [decode_jal ho]; rfl
  · rw [decode_jalr ho, funct3_eq_of_matchesWord h rfl]; rfl
  · have hres : Field.gemmReserved w = 0#9 := extract_eq_of_matchesWord h rfl
    rw [decode_gemm ho, if_pos hres]; rfl
  · rw [decode_ldm ho]; rfl
  · rw [decode_stm ho]; rfl
  · obtain rfl : w = 0xFFFFFFFF#32 := BitVec.and_allOnes.symm.trans (beq_iff_eq.mp h)
    rfl

theorem exists_decode_of_matchesWord (hrow : row ∈ opcodeTable) (h : row.matchesWord w = true) :
    ∃ i, decode w = .ok i ∧ i.mnemonic = row.mnemonic := by
  have hname : (decode w).map Instr.mnemonic = .ok row.mnemonic := by
    rcases List.mem_append.mp hrow with hrow | hrow
    · rcases List.mem_append.mp hrow with hrow | hrow
      · exact decode_map_mnemonic_reg hrow h
      · exact decode_map_mnemonic_imm hrow h
    · exact decode_map_mnemonic_rest hrow h
  cases hd : decode w with
  | error r => rw [hd] at hname; cases hname
  | ok i =>
    rw [hd] at hname
    exact ⟨i, rfl, Except.ok.inj hname⟩

/-- Two rows with a common word agree where both masks have a bit, and no two rows of the table do. -/
theorem row_eq_of_matchesWord {row' : OpcodeRow} (hrow : row ∈ opcodeTable) (hrow' : row' ∈ opcodeTable)
    (h : row.matchesWord w = true) (h' : row'.matchesWord w = true) : row = row' := by
  have hdisjoint : ∀ row ∈ opcodeTable, ∀ row' ∈ opcodeTable,
      row.pattern &&& row'.mask = row'.pattern &&& row.mask → row = row' := by decide
  refine hdisjoint row hrow row' hrow' ?_
  rw [← beq_iff_eq.mp h, ← beq_iff_eq.mp h', BitVec.and_assoc, BitVec.and_assoc, BitVec.and_comm row.mask]

end rows

/-- Settles O28: each row's words decode to its mnemonic, a word that decodes has its instruction's fixed bits, and the
rows' fixed bits differ. -/
theorem decodeFollowsOpcodeTable : Obligations.DecodeFollowsOpcodeTable := by
  refine ⟨fun w row => exists_decode_of_matchesWord, fun w i h => ?_, fun w row row' => row_eq_of_matchesWord⟩
  obtain ⟨row, hrow, hname, hmatch⟩ := Laws.FixedBits.statement i
  rw [(encodeOfDecode w i h).1] at hmatch
  exact ⟨row, hrow, hmatch, hname⟩

end Sys2Proof

namespace Sys2Proof.Machine

open Sys2Proof.Spec

/-! ## The bits of the codec (R80) -/

/-- The bits of the first byte come last, its lowest bit first (R80). -/
theorem bitsOf_cons (b : Byte) (rest : List Byte) : bitsOf (b :: rest) = bitsOf rest ++ (bitsMsbFirst b).reverse := by
  simp [bitsOf]

theorem bitsOf_length (bytes : List Byte) : (bitsOf bytes).length = 8 * bytes.length := by
  induction bytes with
  | nil => rfl
  | cons b rest ih =>
    rw [bitsOf_cons, List.length_append, ih]
    rfl

theorem bitsMsbFirst_reverse_getElem? (b : Byte) (k : Nat) (hk : k < 8) :
    (bitsMsbFirst b).reverse[k]? = some (b.getLsbD k) := by
  interval_cases k <;> rfl

theorem bitsOf_getElem? (bytes : List Byte) (j : Nat) (h : j < 8 * bytes.length) :
    (bitsOf bytes)[j]? = some ((bytes[bytes.length - 1 - j / 8]'(by omega)).getLsbD (j % 8)) := by
  induction bytes with
  | nil => simp at h
  | cons b rest ih =>
    rw [bitsOf_cons]
    by_cases hj : j < 8 * rest.length
    · have hindex : (b :: rest).length - 1 - j / 8 = rest.length - 1 - j / 8 + 1 := by
        rw [List.length_cons]; omega
      rw [List.getElem?_append_left (by rwa [bitsOf_length]), ih hj]
      simp only [hindex, List.getElem_cons_succ]
    · rw [List.length_cons] at h
      have hindex : (b :: rest).length - 1 - j / 8 = 0 := by rw [List.length_cons]; omega
      have hbit : j - 8 * rest.length = j % 8 := by omega
      rw [List.getElem?_append_right (by rw [bitsOf_length]; omega), bitsOf_length, hbit,
        bitsMsbFirst_reverse_getElem? b _ (by omega)]
      simp only [hindex, List.getElem_cons_zero]

/-- Settles O30, by induction on the bytes: the first byte's bits come after those of the rest. -/
theorem codecBitOrder : Obligations.CodecBitOrder := fun bytes => ⟨bitsOf_length bytes, bitsOf_getElem? bytes⟩

/-! ## The value of a bit sequence (R81) -/

theorem bitSum_cons (b : Bool) (rest : List Bool) : bitSum (b :: rest) = b.toNat + 2 * bitSum rest := by
  rw [bitSum, List.length_cons, Finset.sum_range_succ', bitSum, Finset.mul_sum, add_comm]
  congr 1
  · cases b <;> rfl
  · refine Finset.sum_congr rfl fun j _ => ?_
    rw [List.getElem?_cons_succ, pow_succ']
    split <;> rfl

theorem unsignedValueOf_eq_bitSum (r : List Bool) : (unsignedValueOf r : Int) = bitSum r := by
  induction r with
  | nil => rfl
  | cons b rest ih => rw [bitSum_cons, ← ih, unsignedValueOf, Nat.cast_add, Nat.cast_mul]; rfl

theorem valueOf_signed {r : List Bool} {last : Bool} (h : r.getLast? = some last) :
    valueOf r true = unsignedValueOf r - if last then 2 ^ r.length else 0 := by
  cases last <;> simp [valueOf, h]

/-- Settles O31: the value computed bit by bit is the sum, and the last bit decides what the signed one subtracts. -/
theorem codecValue : Obligations.CodecValue := by
  intro r
  refine ⟨unsignedValueOf_eq_bitSum r, fun h => ?_⟩
  have hlast : r.getLast? = some r[r.length - 1] := by rw [List.getLast?_eq_getElem?, List.getElem?_eq_getElem]
  rw [valueOf_signed hlast, unsignedValueOf_eq_bitSum]

/-! ## The codec on the bytes of a word (R82) -/

theorem unsignedValueOf_append (r q : List Bool) :
    unsignedValueOf (r ++ q) = unsignedValueOf r + 2 ^ r.length * unsignedValueOf q := by
  induction r with
  | nil => simp [unsignedValueOf]
  | cons b rest ih => rw [List.cons_append, unsignedValueOf, unsignedValueOf, ih, List.length_cons]; ring

/-- A byte is the number of its bits. -/
theorem unsignedValueOf_byte (b : Byte) : unsignedValueOf (bitsMsbFirst b).reverse = b.toNat := by
  have hbit (k : Nat) : (b.getLsbD k).toNat = b.toNat / 2 ^ k % 2 := Nat.toNat_testBit ..
  have := b.isLt
  simp only [bitsMsbFirst, List.reverse_cons, List.reverse_nil, List.nil_append, List.cons_append, unsignedValueOf,
    hbit]
  omega

/-- The bytes of a sequence are its digits to base 256, the first the highest. -/
theorem unsignedValueOf_bitsOf_cons (b : Byte) (rest : List Byte) :
    unsignedValueOf (bitsOf (b :: rest)) = unsignedValueOf (bitsOf rest) + 2 ^ (8 * rest.length) * b.toNat := by
  rw [bitsOf_cons, unsignedValueOf_append, unsignedValueOf_byte, bitsOf_length]

/-- The last bit of a sequence is the top bit of its first byte. -/
theorem bitsOf_getLast? (b : Byte) (rest : List Byte) : (bitsOf (b :: rest)).getLast? = some b.msb := by
  rw [bitsOf_cons, List.getLast?_append]
  rfl

theorem loadWord_msb (mem : Memory) (a : Nat) : (mem.loadWord a).msb = (mem.readByte (a + 3)).msb := by
  rw [Memory.loadWord]
  show BitVec.msb (n := 8 + 8 + 8 + 8) _ = _
  simp only [BitVec.msb_append]
  rfl

/-- Settles O32: the codec gives the word's number, and the last bit of its sequence is the word's sign. -/
theorem codecReadsInstructionWord : Obligations.CodecReadsInstructionWord := by
  intro mem a bytes
  have hvalue : (mem.loadWord a).toNat = unsignedValueOf (bitsOf bytes) := by
    rw [loadWord_toNat]
    simp only [bytes, unsignedValueOf_bitsOf_cons, List.length_cons, List.length_nil]
    have : unsignedValueOf (bitsOf []) = 0 := rfl
    omega
  refine ⟨congrArg Nat.cast hvalue, ?_⟩
  rw [valueOf_signed (bitsOf_getLast? _ _), ← hvalue, ← loadWord_msb, BitVec.toInt_eq_msb_cond, bitsOf_length]
  split
  · rfl
  · simp

/-! ## Executing the expansion of li (R114) -/

theorem execAll_cons {i : Instr} {rest : List Instr} {s t : State} (h : exec i s = .next t) :
    execAll (i :: rest) s = execAll rest t := by
  rw [execAll, h]

theorem execAll_pair {i j : Instr} {s t u : State} (hi : exec i s = .next t) (hj : exec j t = .next u) :
    execAll [i, j] s = .next u := by
  rw [execAll_cons hi, execAll_cons hj, execAll]

theorem exec_addi (rd rs1 : XReg) (imm : BitVec 12) (s : State) :
    exec (.addi rd rs1 imm) s = .next (retireX s rd (s.readX rs1 + extend12 imm)) := rfl

theorem exec_lui (rd : XReg) (imm : BitVec 20) (s : State) :
    exec (.lui rd imm) s = .next (retireX s rd (upperImmediate imm)) := rfl

theorem readX_retireX (s : State) (rd r : XReg) (v : Word) :
    (retireX s rd v).readX r = if rd = r then v else s.readX r := readX_writeX s rd r v

@[simp] theorem readX_retireX_same (s : State) (rd : XReg) (v : Word) : (retireX s rd v).readX rd = v :=
  readX_writeX_same s rd v

theorem accessible_retireX (s : State) (rd : XReg) (v a : Word) (n : Nat) :
    (retireX s rd v).accessible a n ↔ s.accessible a n := Iff.rfl

theorem retireX_retireX (s : State) (rd : XReg) (v v' : Word) :
    retireX (retireX s rd v) rd v' = { s with x := s.x.set rd v', pc := s.pc + 8 } := by
  simp [retireX, BitVec.add_assoc]

theorem extend12_ofInt (imm : Int) : extend12 (BitVec.ofInt 12 imm) = trunc32 (imm.bmod (2 ^ 12)) := by
  rw [extend12, BitVec.signExtend, BitVec.toInt_ofInt, trunc32]

theorem upperImmediate_ofInt (n : Int) : upperImmediate (BitVec.ofInt 20 n) = trunc32 (n * 2 ^ 12) := by
  apply BitVec.eq_of_toNat_eq
  refine (append_toNat _ _).trans ?_
  simp only [trunc32, BitVec.toNat_ofInt, BitVec.toNat_ofNat]
  omega

/-- li's upper part makes up for the sign of its lower part (R114). -/
theorem liUpper_mul_add_bmod (imm : Int) : Pseudo.liUpper imm * 2 ^ 12 + imm.bmod (2 ^ 12) = imm := by
  rw [Pseudo.liUpper, Int.bmod]
  omega

theorem execAll_liLong (rd : XReg) (imm : Int) (s : State) :
    execAll (Pseudo.liLong rd imm) s = .next { s with x := s.x.set rd (trunc32 imm), pc := s.pc + 8 } := by
  have hvalue : upperImmediate (BitVec.ofInt 20 (Pseudo.liUpper imm)) + extend12 (BitVec.ofInt 12 imm) =
      trunc32 imm := by
    rw [upperImmediate_ofInt, extend12_ofInt, trunc32, trunc32, ← BitVec.ofInt_add, liUpper_mul_add_bmod, trunc32]
  rw [Pseudo.liLong, execAll_pair (exec_lui ..) (exec_addi ..), readX_retireX_same, hvalue, retireX_retireX]

theorem execAll_li_short (rd : XReg) {imm : Int} (s : State) (hlo : -2048 ≤ imm) (hhi : imm ≤ 2047) :
    execAll (Pseudo.li rd imm) s = .next (retireX s rd (trunc32 ((s.readX 0).toInt + imm))) := by
  have hfits : Pseudo.fits12 imm = true := decide_eq_true ⟨hlo, hhi⟩
  have hbmod : imm.bmod (2 ^ 12) = imm := by rw [Int.bmod]; omega
  rw [Pseudo.li, if_pos hfits, execAll_cons (exec_addi ..), execAll, extend12_ofInt, hbmod, trunc32, trunc32,
    BitVec.ofInt_add, BitVec.ofInt_toInt]

/-- Settles O58: the long form adds the two parts of imm, the short form adds imm to x[0]. -/
theorem loadImmediateExpansion : Obligations.LoadImmediateExpansion :=
  ⟨fun rd imm s _ _ => execAll_liLong rd imm s, fun rd _ s => execAll_li_short rd s⟩

/-! ## Executing push and pop (R115) -/

/-- The statements' word at an address is the one a load answers (R55). -/
theorem wordAt_eq_loadWord (s : State) (a : Nat) : wordAt s a = s.mem.loadWord a := by
  have hnumber := congrArg (BitVec.ofNat 32) (loadWord_toNat s.mem a)
  exact hnumber.symm.trans (by rw [BitVec.ofNat_toNat, BitVec.setWidth_eq])

theorem wordAddress_zero (s : State) (rs1 : XReg) : wordAddress s rs1 0 = s.readX rs1 := BitVec.add_zero _

theorem exec_sw_zero {rs2 rs1 : XReg} {s : State} (h : s.accessible (s.readX rs1) 4) :
    exec (.sw rs2 rs1 0) s =
      .next { s with mem := s.mem.storeWord (s.readX rs1).toNat (s.readX rs2), pc := s.pc + 4 } := by
  rw [← wordAddress_zero] at h ⊢
  exact access_accessible _ h

theorem exec_lw_zero {rd rs1 : XReg} {s : State} (h : s.accessible (s.readX rs1) 4) :
    exec (.lw rd rs1 0) s = .next (retireX s rd (s.mem.loadWord (s.readX rs1).toNat)) := by
  rw [← wordAddress_zero] at h ⊢
  exact access_accessible _ h

/-- `s` after a push of x[rd]. -/
def pushed (rd : XReg) (s : State) : State :=
  { s with
    x := s.x.set sp (s.readX sp - 4)
    mem := s.mem.storeWord (s.readX sp - 4).toNat (s.readX rd)
    pc := s.pc + 8 }

theorem execAll_push {rd : XReg} {s : State} (hrd : rd ≠ sp) (h : s.accessible (s.readX sp - 4) 4) :
    execAll (Pseudo.push rd) s = .next (pushed rd s) := by
  have haddi := exec_addi sp sp (-4) s
  rw [show extend12 (-4) = -4 by decide, ← BitVec.sub_eq_add_neg] at haddi
  have hsp := readX_retireX_same s sp (s.readX sp - 4)
  have hsw := exec_sw_zero (rs2 := rd) (hsp.symm ▸ (accessible_retireX ..).mpr h)
  rw [hsp, readX_retireX, if_neg hrd.symm] at hsw
  rw [Pseudo.push, execAll_pair haddi hsw]
  simp [pushed, retireX, BitVec.add_assoc]

theorem readX_pushed_sp (rd : XReg) (s : State) : (pushed rd s).readX sp = s.readX sp - 4 :=
  readX_writeX_same s sp _

theorem readX_pushed_other (rd : XReg) (s : State) {r : XReg} (h : r ≠ sp) : (pushed rd s).readX r = s.readX r :=
  readX_writeX_other s sp r _ h.symm

theorem loadWord_pushed (rd : XReg) (s : State) :
    (pushed rd s).mem.loadWord (s.readX sp - 4).toNat = s.readX rd := loadWord_storeWord ..

theorem accessible_pushed (rd : XReg) (s : State) (a : Word) (n : Nat) :
    (pushed rd s).accessible a n ↔ s.accessible a n := by
  rw [State.accessible, State.accessible, pushed, storeWord_size]

theorem execAll_pop {rd : XReg} {s : State} (hrd : rd ≠ sp) (h : s.accessible (s.readX sp) 4) :
    execAll (Pseudo.pop rd) s =
      .next (retireX (retireX s rd (s.mem.loadWord (s.readX sp).toNat)) sp (s.readX sp + 4)) := by
  rw [Pseudo.pop, execAll_pair (exec_lw_zero h) (exec_addi ..), readX_retireX, if_neg hrd]
  rfl

/-- Settles O59: pop loads the word push stored and raises x2 by what push lowered it. -/
theorem pushThenPopRestores : Obligations.PushThenPopRestores := by
  intro rd s hrd h
  have hpop : (pushed rd s).accessible ((pushed rd s).readX sp) 4 := by
    rwa [readX_pushed_sp, accessible_pushed]
  refine ⟨_, _, execAll_push hrd h, readX_pushed_sp rd s, ?_, execAll_pop hrd hpop, fun r => ?_⟩
  · exact (wordAt_eq_loadWord _ _).trans (loadWord_pushed rd s)
  · rw [readX_pushed_sp, loadWord_pushed, BitVec.sub_add_cancel, readX_retireX, readX_retireX]
    by_cases hr : sp = r
    · rw [if_pos hr, hr]
    · rw [if_neg hr, readX_pushed_other _ _ (Ne.symm hr), ite_eq_right_iff]
      exact congrArg s.readX

end Sys2Proof.Machine

/-! # The scalar ALU: the words of its instructions, and what each writes to rd

Proofs for the statements about spec/40_alu.md. A statement's word is the word `encode` gives (`regWord_eq_r`,
`immWord_eq_i`), so it decodes by `decodeOfEncode`; what is left of each instruction is one lemma on the function of the
ALU it applies (`Alu.add_eq` to `Alu.sltu_eq`). -/

namespace Sys2Proof.Machine

open Sys2Proof.Spec

/-! ## The words of the R, I and U formats -/

theorem regWord_eq_r (f7 : BitVec 7) (rs2 rs1 : XReg) (f3 : BitVec 3) (rd : XReg) (opc : BitVec 7) :
    regWord f7.toNat rs2 rs1 f3.toNat rd opc.toNat = Format.r f7 rs2 rs1 f3 rd opc := by
  rw [regWord, ← Format.r_toNat, BitVec.ofNat_toNat, BitVec.setWidth_eq]

theorem immWord_eq_i (imm : BitVec 12) (rs1 : XReg) (f3 : BitVec 3) (rd : XReg) (opc : BitVec 7) :
    immWord imm.toNat rs1 f3.toNat rd opc.toNat = Format.i imm rs1 f3 rd opc := by
  rw [immWord, ← Format.i_toNat, BitVec.ofNat_toNat, BitVec.setWidth_eq]

theorem upperWord_eq_u (imm20 : BitVec 20) (rd : XReg) (opc : BitVec 7) :
    BitVec.ofNat 32 (imm20.toNat * 2 ^ 12 + rd.val * 2 ^ 7 + opc.toNat) = Format.u imm20 rd opc := by
  rw [← Format.u_toNat, BitVec.ofNat_toNat, BitVec.setWidth_eq]

/-! ## Instructions that write rd and advance the pc

In the lemmas on the two tables the instruction's own equations (its word, that it has one, its meaning) hold by
definition, so a use gives only the format's fields and why the ALU's value `v` is the statement's `v'`. -/

section completes

variable {i : Instr} {s : State} {rd rs1 rs2 : XReg} {v v' : Word}

theorem completes_of_encode {w : Word} (hw : encode i = w) (hi : i.wellFormed = true)
    (he : exec i s = .next (retireX s rd v)) (hv : v = v') : Completes w i s (retireX s rd v') :=
  ⟨hw ▸ decodeOfEncode i hi, hv ▸ he⟩

/-- An instruction of the R-table (R103, R140). -/
theorem completes_regWord (f7 : BitVec 7) (f3 : BitVec 3) (hv : v = v')
    (hw : encode i = Format.r f7 rs2 rs1 f3 rd 0x33#7 := by rfl) (hi : i.wellFormed = true := by rfl)
    (he : exec i s = .next (retireX s rd v) := by rfl) :
    Completes (regWord f7.toNat rs2 rs1 f3.toNat rd 0x33) i s (retireX s rd v') :=
  completes_of_encode (hw.trans (regWord_eq_r ..).symm) hi he hv

/-- An instruction of the I-table (R104, R160); `imm` is all of its immediate field. -/
theorem completes_immWord (imm : BitVec 12) (f3 : BitVec 3) {field : Nat} (hf : imm.toNat = field) (hv : v = v')
    (hw : encode i = Format.i imm rs1 f3 rd 0x13#7 := by rfl) (hi : i.wellFormed = true := by rfl)
    (he : exec i s = .next (retireX s rd v) := by rfl) :
    Completes (immWord field rs1 f3.toNat rd 0x13) i s (retireX s rd v') :=
  completes_of_encode (hw.trans (hf ▸ immWord_eq_i ..).symm) hi he hv

end completes

/-! ## The functions of the ALU in numbers -/

namespace Alu

variable (a b : Word)

/-- R141. -/
theorem add_eq : add a b = trunc32 (a.toInt + b.toInt) := by
  rw [add, trunc32, BitVec.ofInt_add, BitVec.ofInt_toInt, BitVec.ofInt_toInt]

/-- R142. -/
theorem sub_eq : sub a b = trunc32 (a.toInt - b.toInt) := by
  apply BitVec.eq_of_toInt_eq
  rw [sub, trunc32, BitVec.toInt_sub, BitVec.toInt_ofInt]

/-- R151. -/
theorem mul_eq : mul a b = trunc32 (a.toInt * b.toInt) := by
  rw [mul, trunc32, BitVec.ofInt_mul, BitVec.ofInt_toInt, BitVec.ofInt_toInt]

variable {a b} {n : Nat}

/-- R146. -/
theorem sll_eq (h : shiftCount b = n) : sll a b = trunc32 (a.toNat * 2 ^ n : Nat) := by
  apply BitVec.eq_of_toNat_eq
  rw [sll, h, trunc32, BitVec.ofInt_natCast, BitVec.toNat_shiftLeft, Nat.shiftLeft_eq, BitVec.toNat_ofNat]

/-- R147. -/
theorem srl_eq (h : shiftCount b = n) : srl a b = BitVec.ofNat 32 (a.toNat / 2 ^ n) := by
  rw [srl, h, ← Nat.shiftRight_eq_div_pow, ← BitVec.toNat_ushiftRight, BitVec.ofNat_toNat, BitVec.setWidth_eq]

/-- R148: the quotient is rounded down. -/
theorem sra_eq (h : shiftCount b = n) : sra a b = trunc32 (a.toInt / 2 ^ n) := by
  rw [sra, h, BitVec.sshiftRight, Int.shiftRight_eq_div_pow, Nat.cast_pow, Nat.cast_ofNat, trunc32]

/-- R149. -/
theorem slt_eq {k : Int} (h : b.toInt = k) : slt a b = if a.toInt < k then 1 else 0 := by
  simp [slt, BitVec.slt, h]

/-- R150. -/
theorem sltu_eq {k : Int} (h : (b.toNat : Int) = k) : sltu a b = if (a.toNat : Int) < k then 1 else 0 := by
  simp [sltu, BitVec.ult, ← h]

end Alu

/-! ## The second operand -/

theorem shiftCount_eq_mod (operand : Word) : shiftCount operand = operand.toNat % 32 := by
  simp [shiftCount]

theorem shiftCount_shamtOperand (shamt : BitVec 5) : shiftCount (shamtOperand shamt) = shamt.toNat := by
  rw [shiftCount_eq_mod, shamtOperand, BitVec.toNat_setWidth]
  omega

theorem extend12_toInt (imm : BitVec 12) : (extend12 imm).toInt = imm.toInt :=
  BitVec.toInt_signExtend_of_le (by decide)

/-- The sign-extended immediate as an unsigned number (R169). -/
theorem extend12_toNat (imm : BitVec 12) : ((extend12 imm).toNat : Int) = imm.toInt % 2 ^ 32 := by
  rw [extend12, BitVec.signExtend, BitVec.toNat_ofInt]
  omega

/-- R98. -/
theorem upperImmediate_eq (imm20 : BitVec 20) : upperImmediate imm20 = BitVec.ofNat 32 (imm20.toNat * 2 ^ 12) := by
  apply BitVec.eq_of_toNat_eq
  refine (append_toNat imm20 0#12).trans ?_
  rw [BitVec.toNat_ofNat, BitVec.toNat_ofNat]
  omega

/-! ## The register-register instructions -/

/-- Settles O1: sums and differences in numbers, the bitwise results bit by bit. -/
theorem registerAddSubLogicResult : Obligations.RegisterAddSubLogicResult := by
  intro rd rs1 rs2 s a b
  exact ⟨completes_regWord 0b0000000 0b000 (Alu.add_eq a b),
    completes_regWord 0b0100000 0b000 (Alu.sub_eq a b),
    ⟨Alu.xor a b, completes_regWord 0b0000000 0b100 rfl, fun _ => BitVec.getLsbD_xor⟩,
    ⟨Alu.or a b, completes_regWord 0b0000000 0b110 rfl, fun _ => BitVec.getLsbD_or⟩,
    ⟨Alu.and a b, completes_regWord 0b0000000 0b111 rfl, fun _ => BitVec.getLsbD_and⟩⟩

/-- Settles O2: the count is the low 5 bits of x[rs2]. -/
theorem registerShiftResult : Obligations.RegisterShiftResult := by
  intro rd rs1 rs2 s a n
  have hcount : shiftCount (s.readX rs2) = n := shiftCount_eq_mod _
  exact ⟨completes_regWord 0b0000000 0b001 (Alu.sll_eq hcount), completes_regWord 0b0000000 0b101 (Alu.srl_eq hcount),
    completes_regWord 0b0100000 0b101 (Alu.sra_eq hcount)⟩

/-- Settles O3: slt compares the registers' signed numbers, sltu their unsigned ones. -/
theorem registerCompareResult : Obligations.RegisterCompareResult := by
  intro rd rs1 rs2 s a b
  have hsltu : Alu.sltu a b = if a.toNat < b.toNat then 1 else 0 := by simpa using Alu.sltu_eq (a := a) (b := b) rfl
  exact ⟨completes_regWord 0b0000000 0b010 (Alu.slt_eq rfl), completes_regWord 0b0000000 0b011 hsltu⟩

/-- A word of mov's pair of funct fields whose rs2 field is not 0 has no meaning (R103). -/
theorem decode_mov_rs2 {rs2 : XReg} (rs1 rd : XReg) (h : rs2 ≠ 0) :
    decode (Format.r movFunct7 rs2 rs1 0b000#3 rd 0x33#7) = .error .movRs2 := by
  rw [decode_reg (Format.r_fields ..).1]
  simp [decodeReg, Format.r_fields, movFunct7, h]

/-- Settles O4: the product in numbers, the copy as read, and the R-table's check of mov's rs2 field. -/
theorem registerMulMovResult : Obligations.RegisterMulMovResult := by
  intro rd rs1 rs2 s a b
  have hmov : regWord 0b0000010 rs2 rs1 0b000 rd 0x33 = Format.r movFunct7 rs2 rs1 0b000#3 rd 0x33#7 :=
    regWord_eq_r movFunct7 rs2 rs1 0b000#3 rd 0x33#7
  refine ⟨completes_regWord 0b0000001 0b000 (Alu.mul_eq a b), completes_regWord movFunct7 0b000 rfl, fun h => ?_⟩
  exact ⟨.movRs2, hmov ▸ decode_mov_rs2 rs1 rd h⟩

/-! ## The register-immediate instructions -/

/-- Settles O5: the second operand is the sign-extended immediate, whose signed value is the immediate's. -/
theorem immediateAddLogicResult : Obligations.ImmediateAddLogicResult := by
  intro rd rs1 imm s a b
  have hadd := Alu.add_eq a (extend12 imm)
  rw [extend12_toInt] at hadd
  exact ⟨completes_immWord imm 0b000 rfl hadd,
    ⟨Alu.xor a b, completes_immWord imm 0b100 rfl rfl, fun _ => BitVec.getLsbD_xor⟩,
    ⟨Alu.or a b, completes_immWord imm 0b110 rfl rfl, fun _ => BitVec.getLsbD_or⟩,
    ⟨Alu.and a b, completes_immWord imm 0b111 rfl rfl, fun _ => BitVec.getLsbD_and⟩⟩

/-- Settles O6: the immediate field is funct7 above the shift amount, and the amount is the count (R101). -/
theorem immediateShiftResult : Obligations.ImmediateShiftResult := by
  intro rd rs1 shamt s a n
  have hcount : shiftCount (shamtOperand shamt) = n := shiftCount_shamtOperand shamt
  have hlow : (0b0000000#7 ++ shamt).toNat = n := (append_toNat _ shamt).trans (by simp [n])
  have hhigh : (0b0100000#7 ++ shamt).toNat = 0x400 + n := append_toNat _ shamt
  exact ⟨completes_immWord _ 0b001 hlow (Alu.sll_eq hcount), completes_immWord _ 0b101 hlow (Alu.srl_eq hcount),
    completes_immWord _ 0b101 hhigh (Alu.sra_eq hcount)⟩

/-- Settles O7: slti reads the sign-extended immediate as a signed number, sltui as an unsigned one. -/
theorem immediateCompareResult : Obligations.ImmediateCompareResult := by
  intro rd rs1 imm s a
  exact ⟨completes_immWord imm 0b010 rfl (Alu.slt_eq (extend12_toInt imm)),
    completes_immWord imm 0b011 rfl (Alu.sltu_eq (extend12_toNat imm))⟩

/-! ## lui -/

/-- Settles O8: the effect of lui takes nothing from the old rd. -/
theorem upperImmediateResult : Obligations.UpperImmediateResult := by
  intro rd imm20 s
  exact completes_of_encode (upperWord_eq_u imm20 rd 0x37#7).symm rfl (exec_lui ..) (upperImmediate_eq imm20)

end Sys2Proof.Machine

/-! # Loads and stores: the words of lw and sw, their faults, and what they load and store

Proofs for the statements about spec/41_load_store.md. An instruction that is one access ends in the access check's three
ways (`accessEnds_of_exec`), and a store of bytes is read back byte by byte (`storedBytes_writeBytes`). -/

namespace Sys2Proof.Machine

open Sys2Proof.Spec

/-! ## The word of the S format, and how an access ends -/

theorem storeWord_eq_s (imm : BitVec 12) (rs2 rs1 : XReg) (f3 : BitVec 3) (opc : BitVec 7) :
    Spec.storeWord imm rs2 rs1 f3.toNat opc.toNat = Format.s imm rs2 rs1 f3 opc := by
  rw [Spec.storeWord, ← Format.s_toNat, BitVec.ofNat_toNat, BitVec.setWidth_eq]

/-- An instruction that is an access ends in the fault the check raises, alignment first, or in the state `t` the access
leads to (R53, R54, R309). -/
theorem accessEnds_of_exec {i : Instr} {s t : State} {kind : AccessKind} {ea : Word} {n : Nat} {completes : Prop}
    (he : exec i s = s.access kind ea n t) (hc : exec i s = .next t → completes) :
    AccessEnds i s kind ea n completes := by
  refine ⟨fun hmis => ?_, fun halign hout => ?_, fun halign hin => hc ?_⟩
  · exact he.trans (access_faults t (accessFault_misaligned s kind ea n hmis))
  · exact he.trans (access_faults t (accessFault_outside s kind ea n halign hout))
  · exact he.trans (access_accessible t ⟨halign, hin⟩)

/-! ## The load -/

/-- Settles O9: the word a load answers is the little-endian number of its bytes. -/
theorem loadWordResult : Obligations.LoadWordResult := by
  intro rd rs1 imm s ea
  have hword : immWord imm.toNat rs1 0b010 rd 0x03 = encode (.lw rd rs1 imm) := immWord_eq_i imm rs1 0b010#3 rd 0x03#7
  have hexec : exec (.lw rd rs1 imm) s = s.access .load ea 4 (retireX s rd (s.mem.loadWord ea.toNat)) := rfl
  rw [wordAt_eq_loadWord]
  exact ⟨hword ▸ decodeOfEncode _ rfl, accessEnds_of_exec hexec id⟩

/-! ## The store -/

/-- Writing a list of bytes and advancing the pc stores exactly those bytes. -/
theorem storedBytes_writeBytes (s : State) (a : Nat) (bs : List Byte) {byte : Nat → Byte}
    (h : ∀ k (hk : k < bs.length), bs[k] = byte k) :
    StoredBytes s { s with mem := s.mem.writeBytes a bs, pc := s.pc + 4 } a bs.length byte :=
  ⟨⟨_, rfl, writeBytes_size s.mem a bs⟩,
    fun k hk => (readByte_writeBytes_inside s.mem a bs k hk).trans (h k hk),
    fun x hx => readByte_writeBytes_outside s.mem a bs x hx⟩

/-- Byte `k` of a word in memory order is its digit `k` to base 256 (R55). -/
theorem wordBytes_getElem (v : Word) (k : Nat) (hk : k < (wordBytes v).length) :
    (wordBytes v)[k] = BitVec.ofNat 8 (v.toNat / 2 ^ (8 * k)) := by
  have hslice : (wordBytes v)[k] = v.extractLsb' (8 * k) 8 := by
    rw [wordBytes_length] at hk
    interval_cases k <;> rfl
  rw [hslice, BitVec.extractLsb', Nat.shiftRight_eq_div_pow]

/-- Settles O10: what sw stores are the bytes of x[rs2], lowest first. -/
theorem storeWordResult : Obligations.StoreWordResult := by
  intro rs2 rs1 imm s ea
  have hword : Spec.storeWord imm rs2 rs1 0b010 0x23 = encode (.sw rs2 rs1 imm) :=
    storeWord_eq_s imm rs2 rs1 0b010#3 0x23#7
  have hexec : exec (.sw rs2 rs1 imm) s =
      s.access .store ea 4 { s with mem := s.mem.storeWord ea.toNat (s.readX rs2), pc := s.pc + 4 } := rfl
  have hstored := storedBytes_writeBytes s ea.toNat (wordBytes (s.readX rs2)) (wordBytes_getElem _)
  exact ⟨hword ▸ decodeOfEncode _ rfl, accessEnds_of_exec hexec fun hnext => ⟨_, hnext, hstored⟩⟩

end Sys2Proof.Machine

/-! # Control transfer: the words of the branches and jumps, and where the pc goes

Proofs for the statements about spec/42_control.md. A branch completes in the two ways of `branch`
(`branchCompletes_of_encode`), so what is left of each is what its comparison of the difference with 0 says about the
registers; what is left of jalr is which value of x[rs1] it reads (`jalrBase_eq`). -/

namespace Sys2Proof.Machine

open Sys2Proof.Spec

/-! ## The words of the B and J formats -/

theorem branchWord_eq_b (imm : BitVec 13) (rs2 rs1 : XReg) (f3 : BitVec 3) :
    branchWord imm rs2 rs1 f3.toNat = Format.b imm rs2 rs1 f3 0x63#7 := by
  have hnumber := Format.b_toNat 0x63#7 f3 rs1 rs2 imm
  rw [BitVec.toNat_ofNat] at hnumber
  rw [branchWord, ← hnumber, BitVec.ofNat_toNat, BitVec.setWidth_eq]

theorem jumpWord_eq_j (imm : BitVec 21) (rd : XReg) : jumpWord imm rd = Format.j imm rd 0x6F#7 := by
  have hnumber := Format.j_toNat 0x6F#7 rd imm
  rw [BitVec.toNat_ofNat] at hnumber
  rw [jumpWord, ← hnumber, BitVec.ofNat_toNat, BitVec.setWidth_eq]

/-! ## The comparator's difference (R220) -/

/-- Wrapping to 32 bits takes no nonzero difference of two words to 0. -/
theorem difference_eq_zero_iff (s : State) (rs1 rs2 : XReg) :
    s.difference rs1 rs2 = 0 ↔ s.readX rs1 = s.readX rs2 := by
  rw [State.difference]
  cases s.params.branchCmp with
  | exact => exact sub_eq_zero.trans BitVec.toInt_inj
  | wrapped =>
    calc (s.readX rs1 - s.readX rs2).toInt = 0
        ↔ s.readX rs1 - s.readX rs2 = 0 := BitVec.toInt_inj (y := 0)
      _ ↔ s.readX rs1 = s.readX rs2 := sub_eq_zero

theorem difference_neg_iff (s : State) (rs1 rs2 : XReg) :
    s.difference rs1 rs2 < 0 ↔ DifferenceNegative s rs1 rs2 := by
  rw [State.difference, DifferenceNegative]
  cases s.params.branchCmp with
  | exact => exact sub_neg
  | wrapped => rw [← BitVec.toInt_sub]; rfl

/-! ## The branches -/

/-- An instruction of the B-table (R106) whose meaning is a branch on `d`, a condition equivalent to `taken`. -/
theorem branchCompletes_of_encode {i : Instr} {s : State} {imm : BitVec 13} {rs1 rs2 : XReg} {f3 : BitVec 3}
    {d taken : Prop} [Decidable d] (hw : encode i = Format.b imm rs2 rs1 f3 0x63#7) (hi : i.wellFormed = true)
    (he : exec i s = branch (decide d) imm s) (hd : d ↔ taken) :
    BranchCompletes (branchWord imm rs2 rs1 f3.toNat) i s imm taken := by
  refine ⟨?_, fun ht => ?_, fun hn => ?_⟩
  · rw [branchWord_eq_b, ← hw]
    exact decodeOfEncode i hi
  · rw [he, decide_eq_true (hd.mpr ht)]
    rfl
  · rw [he, decide_eq_false (mt hd.mp hn)]
    rfl

/-- Settles O15: the difference is 0 exactly for equal registers, and negative as the comparator's mode reads it. -/
theorem conditionalBranchResult : Obligations.ConditionalBranchResult := by
  intro rs1 rs2 imm s heven
  have hzero := difference_eq_zero_iff s rs1 rs2
  have hneg := difference_neg_iff s rs1 rs2
  exact ⟨branchCompletes_of_encode (f3 := 0b000) rfl heven rfl hzero,
    branchCompletes_of_encode (f3 := 0b001) rfl heven rfl (not_congr hzero),
    branchCompletes_of_encode (f3 := 0b100) rfl heven rfl hneg,
    branchCompletes_of_encode (f3 := 0b101) rfl heven rfl (not_lt.symm.trans (not_congr hneg))⟩

/-! ## The jumps -/

/-- Settles O16: link and target are both computed from the old pc. -/
theorem jumpAndLinkResult : Obligations.JumpAndLinkResult := by
  intro rd imm s heven
  have hword : jumpWord imm rd = encode (.jal rd imm) := jumpWord_eq_j imm rd
  exact ⟨hword ▸ decodeOfEncode _ heven, rfl⟩

/-- The base of jalr is the link exactly where the link is written first and to rs1 itself (decision D22). -/
theorem jalrBase_eq (rd rs1 : XReg) (s : State) :
    jalrBase rd rs1 s = if s.params.jalrOrder = .linkFirst ∧ rd = rs1 then s.pc + 4 else s.readX rs1 := by
  rw [jalrBase]
  cases s.params.jalrOrder with
  | linkFirst => simp [readX_writeX]
  | rs1First => simp

/-- Settles O17: the target is the base plus the sign-extended immediate, with no bit cleared. -/
theorem jumpRegisterResult : Obligations.JumpRegisterResult := by
  intro rd rs1 imm s
  have hword : immWord imm.toNat rs1 0b000 rd 0x67 = encode (.jalr rd rs1 imm) :=
    immWord_eq_i imm rs1 0b000#3 rd 0x67#7
  have hexec : exec (.jalr rd rs1 imm) s = .next { s with
      x := s.x.set rd (s.pc + 4), pc := jalrBase rd rs1 s + BitVec.ofInt 32 imm.toInt } := rfl
  rw [jalrBase_eq] at hexec
  exact ⟨hword ▸ decodeOfEncode _ rfl, hexec⟩

end Sys2Proof.Machine

/-! # The matrix tile engine: gemm and its numerics, and the tile accesses

Proofs for the statements about spec/43_matrix.md. The model's exact case is the premise of R253 (`exactCase_iff`), its
partial sums being the sums of the nonempty choices of the five terms (`mem_partialSums_snoc`); inside it a result's
element has the exact value (`represents_exactElement`), and any pattern of that value is the element
(`exactElement_of_represents`). The tile accesses follow from the lemmas on the scalar ones. -/

namespace Sys2Proof.Machine

open Sys2Proof.Spec

/-! ## The premise of the exactness property (R253) -/

/-- The partial sums of a family of terms are the sums of its nonempty choices. -/
theorem mem_partialSums_ofFn {n : Nat} (f : Fin n → Int) (v : Int) :
    v ∈ Gemm.partialSums (List.ofFn f) ↔
      ∃ p : Fin n → Bool, (∃ k, p k = true) ∧ ∑ k, (if p k then f k else 0) = v := by
  rw [mem_partialSums, List.ofFn_eq_map]
  constructor
  · rintro ⟨part, hsub, hne, rfl⟩
    obtain ⟨l, hl, rfl⟩ := List.sublist_map_iff.mp hsub
    obtain ⟨k, hk⟩ := List.exists_mem_of_ne_nil l fun h => hne (h ▸ rfl)
    have hnodup := (List.nodup_finRange n).sublist hl
    refine ⟨fun k => decide (k ∈ l), ⟨k, decide_eq_true hk⟩, ?_⟩
    rw [← List.sum_toFinset f hnodup, ← Finset.sum_filter]
    exact Finset.sum_congr (by ext; simp) fun _ _ => rfl
  · rintro ⟨p, ⟨k, hk⟩, rfl⟩
    refine ⟨((List.finRange n).filter p).map f, List.filter_sublist.map f, ?_, ?_⟩
    · exact List.ne_nil_of_mem (List.mem_map_of_mem (List.mem_filter.mpr ⟨List.mem_finRange k, hk⟩))
    · rw [← List.sum_toFinset f ((List.nodup_finRange n).filter p), List.toFinset_filter, List.toFinset_finRange,
        Finset.sum_filter]

/-- The same for a family with one more term `a`, whose choice is given apart. -/
theorem mem_partialSums_snoc {n : Nat} (f : Fin n → Int) (a v : Int) :
    v ∈ Gemm.partialSums (List.ofFn (Fin.snoc (α := fun _ => Int) f a)) ↔
      ∃ (p : Fin n → Bool) (c : Bool), ((∃ k, p k = true) ∨ c = true) ∧
        (∑ k, if p k then f k else 0) + (if c then a else 0) = v := by
  simp only [mem_partialSums_ofFn, Fin.sum_univ_castSucc, Fin.exists_fin_succ', Fin.snoc_castSucc, Fin.snoc_last]
  constructor
  · rintro ⟨p, h⟩
    exact ⟨fun k => p k.castSucc, p (Fin.last n), h⟩
  · rintro ⟨p, c, h⟩
    refine ⟨Fin.snoc (α := fun _ => Bool) p c, ?_⟩
    simpa only [Fin.snoc_castSucc, Fin.snoc_last] using h

theorem indices_all_iff (p : Fin 4 → Bool) : Gemm.indices.all p = true ↔ ∀ k, p k = true := by
  simp [Gemm.indices, Fin.forall_fin_succ]

theorem tileFinite_iff (t : Tile) : Gemm.tileFinite t = true ↔ AllFinite t := by
  simp only [Gemm.tileFinite, indices_all_iff, AllFinite]

section premise

variable (A B C : Tile) (i j : Fin 4)

/-- The four products, and C[i][j] beside them. -/
theorem terms_eq_ofFn : Gemm.terms A B C i j =
    List.ofFn (Fin.snoc (α := fun _ => Int) (Gemm.product A B i j) (Half.units (C.elem i j) * 2 ^ 24)) := rfl

theorem exactValue_eq_sum : Gemm.exactValue A B C i j =
    (∑ k, Half.units (A.elem i k) * Half.units (B.elem k j)) + Half.units (C.elem i j) * 2 ^ 24 := by
  rw [Gemm.exactValue, terms_eq_ofFn, List.sum_ofFn, Fin.sum_snoc]
  rfl

theorem elementExact_iff : ElementExact A B C i j ↔
    (Gemm.partialSums (Gemm.terms A B C i j)).all Half.representable = true := by
  simp only [List.all_eq_true, terms_eq_ofFn, mem_partialSums_snoc, Half.representable_iff]
  constructor
  · rintro h _ ⟨p, c, hpc, rfl⟩
    exact h p c hpc
  · exact fun h p c hpc => h _ ⟨p, c, hpc, rfl⟩

theorem exactCase_iff : Gemm.exactCase A B C = true ↔
    AllFinite A ∧ AllFinite B ∧ AllFinite C ∧ ∀ i j, ElementExact A B C i j := by
  simp only [Gemm.exactCase, Bool.and_eq_true, tileFinite_iff, indices_all_iff, elementExact_iff, and_assoc]

variable {A B C i j}

/-- The choice of all five terms is one of those the premise speaks of. -/
theorem exists_represents_exactValue (h : ElementExact A B C i j) :
    ∃ x, Represents x (Gemm.exactValue A B C i j) := by
  rw [exactValue_eq_sum]
  simpa using h (fun _ => true) true (.inr rfl)

/-- The exactness property is about the exact case and the exact value of the model. -/
theorem exactAt_iff {f : Tile → Tile → Tile → Tile} : ExactAt f A B C ↔
    (Gemm.exactCase A B C = true → ∀ i j, Represents ((f A B C).elem i j) (Gemm.exactValue A B C i j)) := by
  simp only [ExactAt, exactCase_iff, and_imp, exactValue_eq_sum]

end premise

/-! ## The elements of a result -/

/-- The pattern of a representable value has that value, whichever sign a zero takes. -/
theorem represents_exactElement {v : Int} (free : Half) (h : ∃ x, Represents x v) :
    Represents (Gemm.exactElement v free) v := by
  obtain ⟨bits, hbits⟩ := Option.isSome_iff_exists.mp ((Half.representable_iff v).mpr h)
  rw [Gemm.exactElement, hbits]
  exact Half.exactBits?_sound hbits _ fun hv => if_neg hv

/-- A pattern of a value is the value's pattern with the sign of a zero taken from it. -/
theorem exactElement_of_represents {v : Int} {h : Half} (hr : Represents h v) : Gemm.exactElement v h = h := by
  obtain ⟨hfinite, rfl⟩ := hr
  obtain ⟨hbits, hsign⟩ := Half.exactBits?_complete hfinite
  have hs : (if Half.units h * 2 ^ 24 = 0 then Half.signBit h else decide (Half.units h * 2 ^ 24 < 0))
      = Half.signBit h := by
    split_ifs with hz
    · rfl
    · rw [hsign (left_ne_zero_of_mul hz), decide_eq_decide]
      omega
  rw [Gemm.exactElement, hbits]
  exact (congrArg (BitVec.ofBool · ++ h.extractLsb' 0 15) hs).trans (Half.sign_bits h)

section ofFree

variable {f : Tile → Tile → Tile → Tile} {A B C : Tile}

theorem ofFree_elem (h : Gemm.exactCase A B C = true) (i j : Fin 4) :
    (Gemm.ofFree f A B C).elem i j = Gemm.exactElement (Gemm.exactValue A B C i j) ((f A B C).elem i j) := by
  rw [Gemm.ofFree, if_pos h, Tile.elem_ofFn]

theorem ofFree_of_not_exactCase (h : ¬ Gemm.exactCase A B C = true) : Gemm.ofFree f A B C = f A B C := if_neg h

/-- Whatever the free value, the model's GemmFn has the exactness property. -/
theorem exactAt_ofFree : ExactAt (Gemm.ofFree f) A B C := by
  refine exactAt_iff.mpr fun hc i j => ?_
  obtain ⟨_, _, _, hexact⟩ := (exactCase_iff A B C).mp hc
  rw [ofFree_elem hc]
  exact represents_exactElement _ (exists_represents_exactValue (hexact i j))

end ofFree

/-- Settles O20: GemmFn has the exactness property for every free value, so for the Core's own. -/
theorem gemmExactness : Obligations.GemmExactness := fun _ _ _ => exactAt_ofFree

/-- Settles O21: in the exact case both answer patterns of the same values, with the function's own signs of zeros;
elsewhere the model answers what the function answers. -/
theorem gemmFreeValueCoversEveryFunction : Obligations.GemmFreeValueCoversEveryFunction := by
  intro f A B C hf
  by_cases hc : Gemm.exactCase A B C = true
  · refine Tile.eq_of_elem fun i j => ?_
    rw [ofFree_elem hc]
    exact exactElement_of_represents (exactAt_iff.mp hf hc i j)
  · exact ofFree_of_not_exactCase hc

/-! ## gemm -/

/-- Matrix-ALU words have a meaning exactly when their reserved bits are 0 (R92, R107). -/
theorem decode_gemmWord (md ma mb mc : MReg) {reserved : Nat} (h : reserved < 2 ^ 9) :
    decode (gemmWord reserved mc mb ma md) =
      if reserved = 0 then .ok (.gemm md ma mb mc) else .error .gemmReserved := by
  have hnumber : (gemmWord reserved mc mb ma md).toNat = reserved * 2 ^ 23 + mc.val * 2 ^ 19 + mb.val * 2 ^ 15
      + ma.val * 2 ^ 11 + md.val * 2 ^ 7 + 0x0B := by
    rw [gemmWord, BitVec.toNat_ofNat]
    omega
  obtain ⟨hopcode, hreserved, hd, ha, hb, hc⟩ := gemm_fields h (by decide) hnumber
  have hzero : BitVec.ofNat 9 reserved = 0#9 ↔ reserved = 0 := by bv_omega
  simp only [decode_gemm hopcode, hreserved, hd, ha, hb, hc, hzero]

/-- Settles O19: the three operands are read from the old state, and the reserved bits are checked at decode. -/
theorem gemmResult : Obligations.GemmResult := by
  intro md ma mb mc s reserved
  refine ⟨⟨decode_gemmWord md ma mb mc (by decide), rfl⟩, fun hpos hlt => ⟨.gemmReserved, ?_⟩⟩
  rw [decode_gemmWord md ma mb mc hlt, if_neg hpos.ne']

/-! ## The words of ld.m and st.m, and their strides -/

theorem tileWord_eq_matrixMem (imm : BitVec 11) (stride : BitVec 5) (rs1 : XReg) (rd : MReg) (opc : BitVec 7) :
    tileWord imm stride rs1 rd opc.toNat = Format.matrixMem imm stride rs1 rd opc := by
  rw [tileWord, ← Format.matrixMem_toNat, BitVec.ofNat_toNat, BitVec.setWidth_eq]

section tile

variable (md : MReg) (rs1 : XReg) (stride : BitVec 5) (imm : BitVec 11)

theorem decode_tileWord_ldm : decode (tileWord imm stride rs1 md 0x2B) = .ok (.ldm md rs1 stride imm) := by
  have hword : tileWord imm stride rs1 md 0x2B = encode (.ldm md rs1 stride imm) :=
    tileWord_eq_matrixMem imm stride rs1 md opcLdm
  exact hword ▸ decodeOfEncode _ rfl

theorem decode_tileWord_stm : decode (tileWord imm stride rs1 md 0x5B) = .ok (.stm md rs1 stride imm) := by
  have hword : tileWord imm stride rs1 md 0x5B = encode (.stm md rs1 stride imm) :=
    tileWord_eq_matrixMem imm stride rs1 md opcStm
  exact hword ▸ decodeOfEncode _ rfl

end tile

/-- Settles O24: the stride is checked before the address. -/
theorem stridedTileAccessIsRefused : Obligations.StridedTileAccessIsRefused := by
  intro md rs1 stride imm s h
  exact ⟨⟨decode_tileWord_ldm .., exec_strided s (decide_eq_true h)⟩,
    ⟨decode_tileWord_stm .., exec_strided s (decide_eq_true h)⟩⟩

/-! ## The tile load -/

/-- The statements' tile at an address is the one a tile load answers (R258). -/
theorem tileAt_eq_loadTile (s : State) (a : Nat) : tileAt s a = s.mem.loadTile a := by
  refine congrArg Tile.ofFn (funext₂ fun r c => ?_)
  have hnumber := congrArg (BitVec.ofNat 16) (loadHalf_toNat s.mem (a + 2 * (4 * r.val + c.val)))
  exact hnumber.symm.trans (by rw [BitVec.ofNat_toNat, BitVec.setWidth_eq])

/-- Settles O22: with stride 0 ld.m is one access of 32 bytes, which loads the tile at the address. -/
theorem loadTileResult : Obligations.LoadTileResult := by
  intro md rs1 imm s ea
  have hexec : exec (.ldm md rs1 0 imm) s = s.access .tileLoad ea 32 (retireM s md (s.mem.loadTile ea.toNat)) := rfl
  rw [tileAt_eq_loadTile]
  exact ⟨fun _ h => exec_strided s (decide_eq_true h), decode_tileWord_ldm .., accessEnds_of_exec hexec id⟩

/-! ## The tile store -/

/-- Byte `k` of a tile in memory order belongs to element `k / 2` row-major, the low byte first (R258). -/
theorem tileBytes_getElem_of_lt (t : Tile) (k : Nat) (hk : k < (tileBytes t).length) :
    (tileBytes t)[k] =
      BitVec.ofNat 8 ((t.elem (Fin.ofNat 4 (k / 8)) (Fin.ofNat 4 (k / 2 % 4))).toNat / 2 ^ (8 * (k % 2))) := by
  obtain ⟨hlow, hhigh⟩ := tileBytes_getElem t (Fin.ofNat 4 (k / 8)) (Fin.ofNat 4 (k / 2 % 4))
  have hplace : k = 2 * (4 * (Fin.ofNat 4 (k / 8)).val + (Fin.ofNat 4 (k / 2 % 4)).val) + k % 2 := by
    simp only [tileBytes_length, Fin.val_ofNat] at hk ⊢
    omega
  rw [← Nat.shiftRight_eq_div_pow, ← BitVec.extractLsb']
  rcases Nat.mod_two_eq_zero_or_one k with h | h <;> rw [h] at hplace ⊢
  · exact (getElem_congr_idx hplace).trans hlow
  · exact (getElem_congr_idx hplace).trans hhigh

/-- Settles O23: with stride 0 st.m is one access of 32 bytes, and what it stores are the bytes of the tile. -/
theorem storeTileResult : Obligations.StoreTileResult := by
  intro md rs1 imm s ea
  have hexec : exec (.stm md rs1 0 imm) s =
      s.access .tileStore ea 32 { s with mem := s.mem.storeTile ea.toNat (s.readM md), pc := s.pc + 4 } := rfl
  have hstored := storedBytes_writeBytes s ea.toNat (tileBytes (s.readM md)) (tileBytes_getElem_of_lt _)
  exact ⟨fun _ h => exec_strided s (decide_eq_true h), decode_tileWord_stm ..,
    accessEnds_of_exec hexec fun hnext => ⟨_, hnext, hstored⟩⟩

end Sys2Proof.Machine

/-! # halt: its word, and the Core it stops

Proofs for the statement about spec/44_halt.md. -/

namespace Sys2Proof.Machine

open Sys2Proof.Spec

theorem exec_halt (s : State) : exec .halt s = .next { s with status := .halted } := rfl

/-- The opcode field in the statements' form: the 7 low bits as a number (R94). -/
theorem opcode_eq_of_mod {w : Word} {c : BitVec 7} (h : w.toNat % 128 = c.toNat) : Field.opcode w = c :=
  BitVec.eq_of_toNat_eq ((Field.opcode_toNat w).trans h)

/-- Settles O25: the sentinel is checked before the opcodes (R102), and a Core halt has stopped is not Running. -/
theorem haltResult : Obligations.HaltResult := by
  refine ⟨fun s => ⟨decodeOfEncode .halt rfl, exec_halt s⟩, fun w hopcode hw => ?_, fun s t h => ?_⟩
  · exact ⟨.notTheSentinel, decode_sentinel_opcode (opcode_eq_of_mod (c := 0x7F#7) hopcode) hw⟩
  · have ht : { s with status := .halted } = t := Host.Outcome.next.inj ((exec_halt s).symm.trans h)
    subst ht
    exact step_stopped Status.noConfusion

end Sys2Proof.Machine

/-! # Exceptions: the faults, the refusal, their order, and what a step and a run make of them

Proofs for the statements about spec/60_exceptions.md. A Running Core's step ends in one of three ways, each with what
explains it (`step_ends`); precision, the missing register fault and the invariant follow from that. The order of the
checks is put together from one lemma for each way the front of a step ends (`step_of_fetchFault`,
`step_of_decode_error`, `step_of_decode_ok`) and one for each data fault. -/

namespace Sys2Proof.Machine

open Sys2Proof.Spec

/-! ## What explains a status (R300, R306, R308) -/

section explains

variable {s : State}

/-- What a fault records can be read off a state whatever its status. -/
theorem explainsFault_withStatus (s : State) (st : Status) (f : Fault) :
    ({ s with status := st } : State).explainsFault f ↔ s.explainsFault f := Iff.rfl

/-- The fault an access raises is explained by a state that makes the access. -/
theorem explainsFault_of_accessFault {kind : AccessKind} {a : Word} {n : Nat} {f : Fault}
    (hf : s.accessFault kind a n = some f) (hmakes : s.makesAccess kind a n) : s.explainsFault f := by
  rcases accessFault_cases hf with ⟨rfl, halign⟩ | ⟨rfl, halign, hout⟩
  · exact ⟨rfl, halign, n, hmakes⟩
  · exact ⟨rfl, halign, hout, hmakes⟩

/-- Only the halt word decodes to halt, so a Core about to execute halt stands at it (R280). -/
theorem fetch_of_fetchDecode_halt (h : s.fetchDecode = .ok .halt) : s.fetch = .ok 0xFFFFFFFF#32 := by
  rcases fetchDecode_cases s with ⟨f, _, e⟩ | ⟨w, r, _, _, e⟩ | ⟨w, i, hw, hd, e⟩
  · cases e.symm.trans h
  · cases e.symm.trans h
  · cases e.symm.trans h
    exact hw.trans (congrArg Except.ok (encodeOfDecode w .halt hd).1.symm)

/-- The three ways the step of a Running Core ends, each with what explains it: a fault, whichever check raises it; the
refusal of a stride; and the effect of the fetched instruction. -/
inductive StepEnds (s : State) : State → Prop where
  | faulted (f : Fault) (h : s.explainsFault f) : StepEnds s { s with status := .faulted f }
  | refused (i : Instr) (hi : s.fetchDecode = .ok i) (h : i.strided = true) :
      StepEnds s { s with status := .refused .strideUnmodelled s.pc }
  | done (i : Instr) (hi : s.fetchDecode = .ok i)
      (ha : ∀ acc, dataAccess i s = some acc → s.accessible acc.addr acc.size) : StepEnds s (effect i s)

theorem step_ends {t : State} (hr : s.status = .running) (h : step s = .next t) : StepEnds s t := by
  rcases step_cases hr with ⟨f, hf, e⟩ | ⟨w, r, hw, hd, e⟩ | ⟨w, i, _, _, hi, e⟩
  · cases e.symm.trans h
    exact .faulted f (explainsFault_of_accessFault hf (.inl ⟨rfl, rfl, rfl⟩))
  · cases e.symm.trans h
    exact .faulted _ ⟨rfl, hw, r, hd⟩
  · cases exec_cases (e.symm.trans h) with
    | refused hs => exact .refused i hi hs
    | faulted hs acc ha f hf => exact .faulted f (explainsFault_of_accessFault hf (.inr ⟨i, hi, hs, ha⟩))
    | done _ ha => exact .done i hi ha

/-- An effect leaves a Running Core Running or Halted (R30). -/
theorem effect_safe (i : Instr) (hr : s.status = .running) : (effect i s).Safe := by
  unfold State.Safe
  rw [effect_status, hr]
  split
  · exact .inr rfl
  · exact .inl rfl

/-- The status an effect leaves is true of the state: Running asks for nothing, and halt leaves the pc where it is. -/
theorem effect_explainsStatus {i : Instr} (hr : s.status = .running) (hi : s.fetchDecode = .ok i) :
    (effect i s).explainsStatus := by
  by_cases hh : i = .halt
  · subst hh
    exact fetch_of_fetchDecode_halt hi
  · have hrun : (effect i s).status = .running := by rw [effect_status, if_neg hh, hr]
    rw [State.explainsStatus, hrun]
    trivial

/-- Each way a step ends keeps the invariant: only an effect touches memory, and its stores are inside it. -/
theorem StepEnds.inv {t : State} (h : StepEnds s t) (hr : s.status = .running) (hwf : s.mem.wf) : t.Inv := by
  cases h with
  | faulted f hf => exact ⟨hwf, hf⟩
  | refused i hi hs => exact ⟨hwf, rfl, i, hi, hs⟩
  | done i hi ha => exact ⟨effect_wf i s hwf ha, effect_explainsStatus hr hi⟩

/-- A step that ends Faulted changed nothing but the status, and its record is explained. -/
theorem StepEnds.of_faulted {t : State} {f : Fault} (h : StepEnds s t) (hr : s.status = .running)
    (ht : t.status = .faulted f) : t = { s with status := .faulted f } ∧ s.explainsFault f := by
  cases h with
  | faulted g hg => cases ht; exact ⟨rfl, hg⟩
  | refused => cases ht
  | done i _ _ => rcases effect_safe i hr with hend | hend <;> cases hend.symm.trans ht

end explains

/-- Settles O45: a Core that is not Running stays as it is, and each way a Running one's step ends is explained. -/
theorem stepKeepsInvariant : Obligations.StepKeepsInvariant := by
  intro s t hinv h
  by_cases hr : s.status = .running
  · obtain ⟨hwf, _⟩ := hinv
    exact (step_ends hr h).inv hr hwf
  · cases (step_stopped hr).symm.trans h
    exact hinv

/-- Settles O39: the fault's record stays explained, and a Faulted Core's step answers the same state. -/
theorem faultsArePrecise : Obligations.FaultsArePrecise := by
  intro s t f hr h ht
  obtain ⟨rfl, hf⟩ := (step_ends hr h).of_faulted hr ht
  exact ⟨rfl, (explainsFault_withStatus s _ f).mpr hf, core_run_fixed (step_stopped Status.noConfusion)⟩

/-- Settles O40: no state explains a RegisterIndexFault, and every fault of a step is explained. -/
theorem registerIndexFaultIsNeverRaised : Obligations.RegisterIndexFaultIsNeverRaised := by
  intro s t pc index hr h ht
  exact ((step_ends hr h).of_faulted hr ht).2

/-! ## The front of a step (R301 to R303, R311) -/

section front

variable {s : State}

theorem step_of_fetchFault {f : Fault} (hr : s.status = .running) (hf : s.accessFault .fetch s.pc 4 = some f) :
    step s = .next (faulted s f) := by
  rw [step_running hr, cycle, State.fetchDecode, State.fetch, hf]
  rfl

theorem step_of_decode_error {w : Word} {r : DecodeReject} (hr : s.status = .running) (hw : s.fetch = .ok w)
    (hd : decode w = .error r) : step s = .next (faulted s (.decodeError s.pc w)) := by
  have hfront : s.fetchDecode = .error (.decodeError s.pc w) := by simp [State.fetchDecode, hw, hd]
  rw [step_running hr, cycle, hfront]
  rfl

theorem step_of_decode_ok {w : Word} {i : Instr} (hr : s.status = .running) (hw : s.fetch = .ok w)
    (hd : decode w = .ok i) : step s = exec i s := by
  have hfront : s.fetchDecode = .ok i := by simp [State.fetchDecode, hw, hd]
  rw [step_running hr, cycle, hfront]

/-- The fetch of an accessible pc answers the statements' word at it. -/
theorem fetch_wordAt (h : s.accessible s.pc 4) : s.fetch = .ok (wordAt s s.pc.toNat) := by
  rw [wordAt_eq_loadWord, fetch_accessible h]

end front

/-- Settles O33: the alignment check of the fetch is the first. -/
theorem fetchAlignmentFault : Obligations.FetchAlignmentFault :=
  fun s hr h => step_of_fetchFault hr (accessFault_misaligned s .fetch s.pc 4 h)

/-- Settles O34: the bounds check of the fetch is the second. -/
theorem fetchBoundsFault : Obligations.FetchBoundsFault :=
  fun s hr halign hout => step_of_fetchFault hr (accessFault_outside s .fetch s.pc 4 halign hout)

/-- Settles O35: a fetchable pc's word goes to the decoder, which has no opcode 0. -/
theorem decodeFault : Obligations.DecodeFault :=
  ⟨fun _ _ hr h hd => step_of_decode_error hr (fetch_wordAt h) hd, .unknownOpcode, by decide⟩

/-- Settles O36: past the front's checks nothing is left of a step but the execution. -/
theorem stepRunsDecodedInstruction : Obligations.StepRunsDecodedInstruction :=
  fun _ _ hr h hd => step_of_decode_ok hr (fetch_wordAt h) hd

/-- Settles O42: the status is looked at before anything else. -/
theorem stoppedCoreStep : Obligations.StoppedCoreStep := fun _ h => step_stopped h

/-- Settles O43: a fault of the front is a state, and so is each of the ways an instruction ends. -/
theorem runningStepAnswersNext : Obligations.RunningStepAnswersNext := fun _ h => step_running_next h

/-! ## The data access and the order of the checks (R304, R305, R309) -/

/-- Settles O37: the alignment check of an access comes before its bounds check. -/
theorem dataAlignmentFault : Obligations.DataAlignmentFault :=
  fun _ s acc hacc hs h => exec_faults hs hacc (accessFault_misaligned s acc.kind acc.addr acc.size h)

/-- Settles O38: an aligned access passes its first check and fails its second. -/
theorem dataBoundsFault : Obligations.DataBoundsFault :=
  fun _ s acc hacc hs halign hout =>
    exec_faults hs hacc (accessFault_outside s acc.kind acc.addr acc.size halign hout)

/-- Settles O41: the front's checks by their own statements, and past them the step is the instruction's execution,
which refuses a stride, faults by its access or has its effect. -/
theorem checksComeInOrder : Obligations.ChecksComeInOrder := by
  intro s
  refine ⟨stoppedCoreStep s, fetchAlignmentFault s, fetchBoundsFault s, fun hr h r => decodeFault.1 s r hr h,
    fun hr h i hd => ?_⟩
  have hstep : step s = exec i s := stepRunsDecodedInstruction s i hr h hd
  rw [hstep]
  refine ⟨exec_strided s, fun hs => ⟨fun acc hacc => dataAlignmentFault i s acc hacc hs,
    fun acc hacc => dataBoundsFault i s acc hacc hs, fun ha => ?_⟩⟩
  exact ⟨effect i s, exec_effect hs ha, exec_effect hs ha, effect_safe i hr⟩

/-! ## Running on after the bound (R312) -/

theorem run_stopped (n : Nat) {s : State} (h : s.status ≠ .running) : run n s = (outcomeOf s.status, s) := by
  rw [run, runCounting_stopped n h]

theorem run_running (n : Nat) {s t : State} (h : s.status = .running) (ht : step s = .next t) :
    run (n + 1) s = run n t := by
  rw [run, run, runCounting_running n h ht]

/-- Only a Running Core reaches the bound. -/
theorem running_of_outcomeOf {status : Status} (h : outcomeOf status = .iterationLimitReached) :
    status = .running := by
  cases status with
  | running => rfl
  | halted | faulted | refused => cases h

/-- Settles O57, by induction on the first bound: the Core is Running before every turn of the first call. -/
theorem runResumes : Obligations.RunResumes := by
  intro n m s h
  induction n generalizing s with
  | zero => rw [Nat.zero_add]; rfl
  | succ n ih =>
    by_cases hr : s.status = .running
    · obtain ⟨t, ht⟩ := step_running_next hr
      rw [run_running n hr ht] at h ⊢
      rw [Nat.succ_add, run_running (n + m) hr ht]
      exact ih t h
    · rw [run_stopped _ hr] at h
      exact absurd (running_of_outcomeOf h) hr

end Sys2Proof.Machine

/-! # Construction and running: when construction fails, and where a run ends

Proofs for the statements about spec/70_reset_and_hazards.md. Each part of the statement about a run is a lemma of its
own, by one induction over the turns of the loop (`run_induction`). -/

namespace Sys2Proof.Machine

/-- Settles O53: some Core is answered exactly when the sizes fit (`coreNew_eq_some_iff`). -/
theorem constructionFails : Obligations.ConstructionFails := by
  intro image ctrl memSize draw params
  rw [Option.eq_none_iff_forall_ne_some]
  constructor
  · intro hnone hfits
    exact hnone _ (coreNew_eq_some_iff.mpr ⟨hfits, rfl⟩)
  · intro hsizes s hsome
    exact hsizes (coreNew_eq_some_iff.mp hsome).1

/-! ## The turns of a run (R312, R336) -/

/-- What holds at the bound 0 and of a stopped Core, and is carried back over a turn, holds of every run. -/
theorem run_induction {motive : Nat → State → Prop} (bound : ∀ s, motive 0 s)
    (stopped : ∀ n s, s.status ≠ .running → motive n s)
    (turn : ∀ n s t, s.status = .running → step s = .next t → motive n t → motive (n + 1) s)
    (n : Nat) (s : State) : motive n s := by
  induction n generalizing s with
  | zero => exact bound s
  | succ n ih =>
    by_cases hr : s.status = .running
    · obtain ⟨t, ht⟩ := step_running_next hr
      exact turn n s t hr ht (ih t)
    · exact stopped (n + 1) s hr

theorem iterations_stopped (n : Nat) {s : State} (h : s.status ≠ .running) : iterations n s = 0 := by
  rw [iterations, runCounting_stopped n h]

theorem iterations_running (n : Nat) {s t : State} (h : s.status = .running) (ht : step s = .next t) :
    iterations (n + 1) s = iterations n t + 1 := by
  rw [iterations, iterations, runCounting_running n h ht]

theorem iterations_le (n : Nat) (s : State) : iterations n s ≤ n := by
  induction n, s using run_induction with
  | bound s => exact le_rfl
  | stopped n s hr => rw [iterations_stopped n hr]; exact n.zero_le
  | turn n s t hr ht ih => rw [iterations_running n hr ht]; exact Nat.succ_le_succ ih

/-- The state a run ends with is the one its steps lead to. -/
theorem core_run_iterations (n : Nat) (s : State) :
    Sys2Proof.core.run (iterations n s) s = .next (run n s).2 := by
  induction n, s using run_induction with
  | bound s => rfl
  | stopped n s hr => rw [iterations_stopped n hr, run_stopped n hr]; rfl
  | turn n s t hr ht ih => rw [iterations_running n hr ht, core_run_next _ ht, run_running n hr ht, ih]

/-- A run makes each of its steps from a Running Core. -/
theorem running_before_iterations (n : Nat) (s : State) : ∀ j u, j < iterations n s →
    Sys2Proof.core.run j s = .next u → u.status = .running := by
  induction n, s using run_induction with
  | bound s => exact fun j u hj => absurd hj j.not_lt_zero
  | stopped n s hr => rw [iterations_stopped n hr]; exact fun j u hj => absurd hj j.not_lt_zero
  | turn n s t hr ht ih =>
    intro j u hj hu
    rw [iterations_running n hr ht] at hj
    cases j with
    | zero => cases hu; exact hr
    | succ j => rw [core_run_next j ht] at hu; exact ih j u (Nat.lt_of_succ_lt_succ hj) hu

/-- Only the bound ends a run of a Core that is still Running. -/
theorem iterations_eq_of_running (n : Nat) (s : State) : (run n s).2.status = .running → iterations n s = n := by
  induction n, s using run_induction with
  | bound s => exact fun _ => rfl
  | stopped n s hr => rw [run_stopped n hr]; exact fun h => absurd h hr
  | turn n s t hr ht ih => rw [run_running n hr ht, iterations_running n hr ht]; exact fun h => congrArg (· + 1) (ih h)

theorem run_outcome (n : Nat) (s : State) : (run n s).1 = outcomeOf (run n s).2.status := by
  induction n, s using run_induction with
  | bound s => rfl
  | stopped n s hr => rw [run_stopped n hr]
  | turn n s t hr ht ih => rw [run_running n hr ht, ih]

/-- Settles O56, each part by its own lemma about the turns of a run; the outcome is R312's. -/
theorem runStopsAtStatusOrBound : Obligations.RunStopsAtStatusOrBound :=
  fun n s => ⟨iterations_le n s, core_run_iterations n s, running_before_iterations n s, iterations_eq_of_running n s,
    run_outcome n s⟩

end Sys2Proof.Machine

/-! # The words the test vectors write out

Proof for the statement about the words of spec/95_test_vectors.md. Each of them is the word of the instruction it
stands for there, so it decodes to that instruction by `decodeOfEncode`. -/

namespace Sys2Proof

theorem decode_of_encode_eq {i : Instr} {w : Word} (hw : encode i = w) (hi : i.wellFormed = true) :
    decode w = .ok i :=
  hw ▸ decodeOfEncode i hi

/-- Settles O29: the encoder, run on each of the twelve instructions, gives the word as written. -/
theorem writtenWordsDecode : Obligations.WrittenWordsDecode := by
  refine ⟨?add, ?addi, ?srai, ?lui, ?sw, ?beq, ?jal, ?jalr, ?gemm, ?ldm, ?stm, ?halt⟩
  all_goals exact decode_of_encode_eq (by decide) (by decide)

end Sys2Proof
